-- ==== Sys2Proof/Word.lean ====
section
/-! DEFINITION. The machine's word, its 8-bit character and its register number (00_scope.md R7, 10_state.md R20, R31). -/

namespace Sys2Proof

/-- A 16-bit word: registers, memory words, addresses and instructions (00_scope.md R7). -/
abbrev Word := BitVec 16

/-- An 8-bit character code, and one half of a stored word (00_scope.md R7 `CHAR_WIDTH`). -/
abbrev Byte := BitVec 8

/-- A general-register number 0 to 7 (10_state.md R20). -/
abbrev Reg := Fin 8

end Sys2Proof
end

