-- ==== Sys2Proof/Config.lean ====
section
/-! DEFINITION. The implementation parameters of 00_scope.md R7: the two open ones as fields of a
configuration, the fixed ones as constants. -/

namespace Sys2Proof

/-- The open parameters of R7 (20_memory.md R41, decision D5): the keyboard-status and keyboard-data addresses.
A state carries one `Config` that no step writes, so a claim over all states quantifies over the addresses
(DESIGN CHOICE, safe: log 2). -/
structure Config where
  /-- `KBSR_ADDR` -/
  kbsrAddr : Word
  /-- `KBDR_ADDR` -/
  kbdrAddr : Word
  deriving DecidableEq, Repr

/-- The defaults of R7: 0xFE00 and 0xFE02 (numbers from general knowledge, D5: log 16). -/
def Config.default : Config := { kbsrAddr := 0xFE00, kbdrAddr := 0xFE02 }

/-- `PC_RESET` (R7; 70_reset_and_hazards.md R181). -/
def Config.pcReset : Word := 0x3000

/-- `MEM_WORDS` (R7). -/
def Config.memWords : Nat := 65536

end Sys2Proof
end

