-- ==== Sys2Proof/Machine/State.lean ====
section
/-! DEFINITION. The state of the machine (10_state.md, 20_memory.md), as plain data, and its reset value
(70_reset_and_hazards.md R180). -/

namespace Sys2Proof.Machine

/-- Memory in canonical form: storage cells with strictly rising keys, none holding the unlisted value 0.
Word address `a` is kept in the two cells `2a` (bits 15:8) and `2a + 1` (bits 7:0), the order of the program image
(20_memory.md R50). No operation of the machine reads a single cell (R40, R48): the split is storage only
(DESIGN CHOICE, safe: log 1). -/
structure Memory where
  cells : List Host.Cell
  deriving DecidableEq, Repr

/-- What an unlisted cell holds: the reset contents (20_memory.md R59). -/
def Memory.unlisted : Byte := 0

/-- The number of storage cells: two for each of the 65,536 words (20_memory.md R40). -/
def Memory.size : Nat := 2 * Config.memWords

/-- The canonical form: keys strictly rising and inside the address space, no cell at the unlisted value. -/
abbrev Memory.wf (m : Memory) : Prop :=
  m.cells.Pairwise (fun c d => c.1 < d.1) ∧ ∀ c ∈ m.cells, c.1 < Memory.size ∧ c.2 ≠ Memory.unlisted

/-- The two kinds of fatal error (60_exceptions.md R161). -/
inductive FaultKind where
  /-- RTI and RES (R162). -/
  | unimplementedOpcode
  /-- A TRAP vector with no implemented service (R162). -/
  | unknownTrapVector
  deriving DecidableEq, Repr

/-- `run_state` (10_state.md R30), with the fault record inside FAULTED (60_exceptions.md R161). -/
inductive RunState where
  | running
  | halted
  | faulted (kind : FaultKind) (instr addr : Word)
  deriving DecidableEq, Repr

/-- The step in progress between two model steps (40_cycle.md R90: "RUNNING, with the step in progress").
The form is the model's own: log 5 and log 6. -/
inductive Hold where
  /-- No instruction is in progress. -/
  | idle
  /-- A GETC waits in `KbRead` for a character (45_trap.md R145). -/
  | getc
  /-- A PUTS scan that has met no zero word goes on at address `a` (45_trap.md R147). -/
  | puts (a : Word)
  deriving DecidableEq, Repr

/-- One device call with its answer (10_state.md R33). -/
inductive DevEvent where
  | kbAvail (answer : Bool)
  | kbRead (c : Byte)
  | outWrite (b : Byte)
  | outFlush
  deriving DecidableEq, Repr

/-- The state of the CORE (10_state.md; R34: nothing else is state), its configuration, and beside it the model's own
two fields for the environment: the input still to come and the device calls made so far. -/
structure State where
  /-- x[0] .. x[7] (10_state.md R20). -/
  regs : Vector Word 8
  /-- The program counter, a word address (10_state.md R23). -/
  pc : Word
  /-- The condition-flag register (10_state.md R26). -/
  cond : Word
  /-- Mem[0x0000 .. 0xFFFF], KBSR and KBDR among it (20_memory.md R40, R41). -/
  mem : Memory
  /-- `run_state` with the fault record (10_state.md R30, 60_exceptions.md R161). -/
  runState : RunState
  /-- The step in progress, if any (40_cycle.md R90). -/
  hold : Hold
  /-- KBSR_ADDR and KBDR_ADDR (00_scope.md R7). -/
  config : Config
  /-- MODEL'S OWN: the moments of the I/O Device's input to come, `some c` a character available, `none` no character
  at that moment (10_state.md R32: log 3). -/
  kbIn : List (Option Byte)
  /-- MODEL'S OWN: the device trace of 10_state.md R33, oldest call first. -/
  trace : List DevEvent
  deriving DecidableEq, Repr

/-- The machine stops with a fault: never. Every fatal error and halt of this spec has a stated next state (60_exceptions.md
R160, 40_cycle.md R96) and no access faults (60_exceptions.md R162), so the type has no value (log 10; safe). -/
inductive Fault where
  deriving DecidableEq, Repr

/-- Why no meaning is given. -/
inductive Refusal where
  /-- Raised by `exec` for an instruction with no meaning yet; safe. No arm raises it. -/
  | notModelled (mnemonic : String)
  /-- Raised by `boot` for a word array with no origin word (20_memory.md R52); safe: the run does not start. -/
  | imageWithoutOrigin
  /-- Raised by `boot` for an image that runs past 0xFFFF (20_memory.md R52); safe: the run does not start. -/
  | imagePastEnd
  deriving DecidableEq, Repr

/-- The state right after reset (70_reset_and_hazards.md R180): every register zero, pc at PC_RESET, no flag, all memory
zero, RUNNING. The device's stream is the host's and is empty here, as is the trace (DESIGN CHOICE, unsafe: log 11). -/
def State.reset : State where
  regs := Vector.replicate 8 0
  pc := Config.pcReset
  cond := 0
  mem := { cells := [] }
  runState := .running
  hold := .idle
  config := Config.default
  kbIn := []
  trace := []

end Sys2Proof.Machine
end

