-- ==== Sys2Proof/Machine/Ops.lean ====
section
/-! DEFINITION. The shared operations over memory, registers, the I/O Device and `run_state`: the read path
(20_memory.md R42), stores (R46), the device primitives (10_state.md R31), halting (40_cycle.md R96) and raising a fatal
error (60_exceptions.md R160). -/

namespace Sys2Proof.Machine

/-! ### Storage cells -/

/-- What the cells hold at a key; an unlisted key holds the reset contents (20_memory.md R59). -/
def cellAt (key : Nat) : List Host.Cell → Byte
  | [] => Memory.unlisted
  | c :: rest => if c.1 = key then c.2 else cellAt key rest

/-- Put a byte in front of later cells, unless it is the unlisted value. -/
def consCell (key : Nat) (b : Byte) (rest : List Host.Cell) : List Host.Cell :=
  if b = Memory.unlisted then rest else (key, b) :: rest

/-- Store a byte at a key, keeping the canonical form. -/
def setCell (key : Nat) (b : Byte) : List Host.Cell → List Host.Cell
  | [] => consCell key b []
  | c :: rest =>
    if key < c.1 then consCell key b (c :: rest)
    else if key = c.1 then consCell key b rest
    else c :: setCell key b rest

/-! ### Words of memory -/

/-- The key of bits 15:8 of the word at `a`; bits 7:0 follow it (log 1). -/
def cellKey (a : Word) : Nat := 2 * a.toNat

/-- Bits 15:8 of a word. -/
def highByte (w : Word) : Byte := w.extractLsb' 8 8

/-- Bits 7:0 of a word (20_memory.md R48). -/
def lowByte (w : Word) : Byte := w.extractLsb' 0 8

/-- `zext_8` of a character (00_scope.md R9; decision D7). -/
def zext8 (c : Byte) : Word := c.setWidth 16

/-- `Mem[a]`: the storage cell itself, with no side effect (00_scope.md R8). -/
def Memory.readWord (m : Memory) (a : Word) : Word :=
  cellAt (cellKey a) m.cells ++ cellAt (cellKey a + 1) m.cells

/-- `Mem[a] <- v` (20_memory.md R46). -/
def Memory.writeWord (m : Memory) (a v : Word) : Memory :=
  { cells := setCell (cellKey a + 1) (lowByte v) (setCell (cellKey a) (highByte v) m.cells) }

/-! ### Registers -/

/-- `x[i]` (00_scope.md R8). -/
def State.reg (s : State) (r : Reg) : Word := s.regs[r]

/-- `x[i] <- v` (00_scope.md R8). No register is hardwired (10_state.md R20). -/
def State.setReg (s : State) (r : Reg) (v : Word) : State := { s with regs := s.regs.set r v }

/-- `pc <- v`. -/
def State.setPc (s : State) (v : Word) : State := { s with pc := v }

/-! ### The I/O Device (10_state.md R31) -/

/-- Add one call to the device trace (10_state.md R33). -/
def State.record (s : State) (e : DevEvent) : State := { s with trace := s.trace ++ [e] }

/-- The next character of a stream and the stream after it: moments with no character pass (log 3). -/
def nextChar : List (Option Byte) → Option (Byte × List (Option Byte))
  | [] => none
  | some c :: rest => some (c, rest)
  | none :: rest => nextChar rest

/-- `KbAvail()`: is a character available at this moment; it consumes no character. A moment with no character passes
once it has been answered (log 3); at the end of the stream no character is available (log 5). -/
def State.kbAvail (s : State) : Bool × State :=
  match s.kbIn with
  | some _ :: _ => (true, s.record (.kbAvail true))
  | none :: rest => (false, { s with kbIn := rest }.record (.kbAvail false))
  | [] => (false, s.record (.kbAvail false))

/-- `KbRead()`: the next character, consumed; `none` where the step holds because no character comes (log 5). -/
def State.kbRead (s : State) : Option (Byte × State) :=
  match nextChar s.kbIn with
  | some (c, rest) => some (c, { s with kbIn := rest }.record (.kbRead c))
  | none => none

/-- `OutWrite(b)`. -/
def State.outWrite (s : State) (b : Byte) : State := s.record (.outWrite b)

/-- `OutFlush()`. -/
def State.outFlush (s : State) : State := s.record .outFlush

/-- The host supplies further moments of input (60_exceptions.md R176); no step does this. -/
def State.provide (s : State) (moments : List (Option Byte)) : State := { s with kbIn := s.kbIn ++ moments }

/-! ### The memory-mapped I/O controller (20_memory.md R42) -/

/-- `MemWrite(a, 1, v)`: a plain store at every address, with no side effect (20_memory.md R46). -/
def State.memWrite (s : State) (a v : Word) : State := { s with mem := s.mem.writeWord a v }

/-- Set the high bit of KBSR and store the character in KBDR, in that order (20_memory.md R42). -/
def State.latch (s : State) (c : Byte) : State :=
  (s.memWrite s.config.kbsrAddr (s.mem.readWord s.config.kbsrAddr ||| 0x8000)).memWrite s.config.kbdrAddr (zext8 c)

/-- Clear the high bit of KBSR (20_memory.md R42). -/
def State.clearStatus (s : State) : State :=
  s.memWrite s.config.kbsrAddr (s.mem.readWord s.config.kbsrAddr &&& 0x7FFF)

/-- The side effect of a read of the keyboard-status address (20_memory.md R42). The inner `none` is not reached: after
`KbAvail` = true the next `KbRead` gives a character (R44, the host's duty: log 4). -/
def State.pollKeyboard (s : State) : State :=
  match s.kbAvail with
  | (true, s1) =>
    match s1.kbRead with
    | some (c, s2) => s2.latch c
    | none => s1
  | (false, s1) => s1.clearStatus

/-- `MemRead(a, 1)`: the one read path (20_memory.md R42, R43). -/
def State.memRead (s : State) (a : Word) : Word × State :=
  let s1 := if a = s.config.kbsrAddr then s.pollKeyboard else s
  (s1.mem.readWord a, s1)

/-! ### The engine -/

/-- `halt`: `run_state <- HALTED`, nothing else (40_cycle.md R96). -/
def State.halt (s : State) : State := { s with runState := .halted }

/-- The address of the instruction in progress: one before the advanced pc (40_cycle.md R92, R93; DEDUCED, log 8). -/
def State.instrAddr (s : State) : Word := s.pc - 1

/-- `raise Fatal(kind, …)` for the fetched word `instr`: `run_state <- FAULTED(kind, instr, a)` and nothing else
(60_exceptions.md R160). This is the only exception entry the hardware has, and there is no return from it: RTI is itself
a fatal error (R167, R168). -/
def State.raiseFatal (s : State) (kind : FaultKind) (instr : Word) : State :=
  { s with runState := .faulted kind instr s.instrAddr }

/-- The entry of every TRAP: R7 <- the advanced pc, before the service (45_trap.md R140, 60_exceptions.md R167). Its
return is the end of the step: pc is not moved (R168). -/
def State.trapEntry (s : State) : State := s.setReg 7 s.pc

/-- The `fault_kind` output (60_exceptions.md R161). -/
def State.faultKindOut (s : State) : BitVec 2 :=
  match s.runState with
  | .faulted .unimplementedOpcode _ _ => 1
  | .faulted .unknownTrapVector _ _ => 2
  | .running => 0
  | .halted => 0

/-- The `fault_instr` output (60_exceptions.md R161). -/
def State.faultInstrOut (s : State) : Word :=
  match s.runState with
  | .faulted _ instr _ => instr
  | .running => 0
  | .halted => 0

/-- The `fault_addr` output (60_exceptions.md R161). -/
def State.faultAddrOut (s : State) : Word :=
  match s.runState with
  | .faulted _ _ addr => addr
  | .running => 0
  | .halted => 0

end Sys2Proof.Machine
end

