-- ==== Sys2Proof/Machine/Boot.lean ====
section
/-! DEFINITION. The program image and `init_memory` (20_memory.md R50 to R52) and the reset sequence
(70_reset_and_hazards.md R182, R183): how a program comes to run (log 12). -/

namespace Sys2Proof.Machine

/-- The words of an image's byte stream (R50): big-endian pairs, a missing final low byte is zero. -/
def imageWords : List Byte → List Word
  | [] => []
  | [hi] => [hi ++ (0 : Byte)]
  | hi :: lo :: rest => (hi ++ lo) :: imageWords rest

/-- `Mem[a] <- w1; Mem[a + 1] <- w2; …`: the copy loop of R51. -/
def copyWords : Word → List Word → Memory → Memory
  | _, [], m => m
  | a, w :: rest, m => copyWords (a + 1) rest (m.writeWord a w)

/-- `init_memory([origin, w1, …, wn])` (R51). An array with no origin word, and one where origin + n - 1 > 0xFFFF (that is,
origin + n > 65,536), is refused and writes nothing (R52). It writes no register. -/
def initMemory (image : List Word) (s : State) : Host.Outcome State Fault Refusal :=
  match image with
  | [] => .refused .imageWithoutOrigin
  | origin :: words =>
    if origin.toNat + words.length ≤ Config.memWords then .next { s with mem := copyWords origin words s.mem }
    else .refused .imagePastEnd

/-- The reset sequence (70_reset_and_hazards.md R182): zero-filled state, then `init_memory` once. `config` is the
machine's and `input` the host's stream. -/
def boot (config : Config) (input : List (Option Byte)) (image : List Word) : Host.Outcome State Fault Refusal :=
  initMemory image { State.reset with config := config, kbIn := input }

/-- Reset applied again, in any state (R183): the step in progress is abandoned and the reset sequence runs from the start.
The machine keeps its configuration, the host its stream; the trace is that of the new run (log 12). -/
def resetAgain (image : List Word) (s : State) : Host.Outcome State Fault Refusal :=
  boot s.config s.kbIn image

end Sys2Proof.Machine
end

