-- ==== Sys2Proof/Machine/Operands.lean ====
section
/-! DEFINITION. The operand forms: sign extension (00_scope.md R9), the second operand of ADD and AND (30_encoding.md R64),
and the addressing modes (43_loads.md R124). `pc` is the advanced pc (40_cycle.md R92). -/

namespace Sys2Proof.Machine

/-- `sext_N(v)` by the algorithm of R9: where bit N-1 is set, OR the zero-extended field with all ones shifted left by N-1. -/
def sext {n : Nat} (v : BitVec n) : Word :=
  if v.getLsbD (n - 1) then v.setWidth 16 ||| (0xFFFF#16 <<< (n - 1)) else v.setWidth 16

/-- Operand 2 of ADD and AND in register mode (30_encoding.md R64). -/
def op2Reg (s : State) (sr2 : Reg) : Word := s.reg sr2

/-- Operand 2 of ADD and AND in immediate mode (30_encoding.md R64). -/
def op2Imm (imm : BitVec 5) : Word := sext imm

/-- PC-relative: the advanced pc plus a signed word offset (43_loads.md R124; R66: no scaling). Used with 9 and 11 bits. -/
def pcRelative {n : Nat} (s : State) (off : BitVec n) : Word := s.pc + sext off

/-- Base plus offset (43_loads.md R124). -/
def baseOffset (s : State) (base : Reg) (off : BitVec 6) : Word := s.reg base + sext off

/-- Indirect: the pointer is read through the read path (43_loads.md R124, R121). -/
def indirect (s : State) (off : BitVec 9) : Word × State := s.memRead (pcRelative s off)

end Sys2Proof.Machine
end

