-- ==== Sys2Proof/Machine/Flags.lean ====
section
/-! DEFINITION. The condition-flag register: its values (10_state.md R26), `update_flags` (R27) and the test of BR
(42_control.md R110). -/

namespace Sys2Proof.Machine

/-- NEGATIVE (R26; the numbers of the four values are decision D8: log 16). -/
def condNegative : Word := 0x0004

/-- ZERO (R26). -/
def condZero : Word := 0x0002

/-- POSITIVE (R26). -/
def condPositive : Word := 0x0001

/-- No flag: the reset value (R26, R29). -/
def condNone : Word := 0x0000

/-- The flag of a 16-bit result (R27). -/
def flagOf (r : Word) : Word :=
  if r.getLsbD 15 then condNegative
  else if r = 0x0000 then condZero
  else condPositive

/-- `update_flags(r)` (R27). -/
def State.updateFlags (s : State) (r : Word) : State := { s with cond := flagOf r }

/-- The end of every flag-affecting instruction: `x[DR] <- r`, then `update_flags(r)` (10_state.md R28). -/
def State.writeResult (s : State) (dr : Reg) (r : Word) : State := (s.setReg dr r).updateFlags r

/-- The BR test: `(instr[11:9] & cond[2:0]) != 0` (42_control.md R110). -/
def branchTaken (n z p : Bool) (cond : Word) : Bool :=
  (BitVec.ofBool n ++ BitVec.ofBool z ++ BitVec.ofBool p) &&& cond.extractLsb' 0 3 != 0

end Sys2Proof.Machine
end

