-- ==== Sys2Proof/Machine/Control.lean ====
section
/-! DEFINITION. Control transfer: BR, JMP (RET), JSR, JSRR (42_control.md R110 to R115), and the halt sentinel
(40_cycle.md R94). `pc` is the advanced pc on entry. -/

namespace Sys2Proof.Machine

/-- The all-zero word: a graceful halt after the advance, nothing else written (40_cycle.md R94). -/
def execHaltSentinel (s : State) : Host.Outcome State Fault Refusal :=
  .next s.halt

/-- BR (R110). -/
def execBr (n z p : Bool) (off : BitVec 9) (s : State) : Host.Outcome State Fault Refusal :=
  .next (if branchTaken n z p s.cond then s.setPc (pcRelative s off) else s)

/-- JMP; RET is BaseR = 7 (R112). -/
def execJmp (base : Reg) (s : State) : Host.Outcome State Fault Refusal :=
  .next (s.setPc (s.reg base))

/-- The call's link: R7 <- the return address, the advanced pc (R113, R114). -/
def linkReturn (s : State) : State := s.setReg 7 s.pc

/-- JSR (R113). -/
def execJsr (off : BitVec 11) (s : State) : Host.Outcome State Fault Refusal :=
  let s1 := linkReturn s
  .next (s1.setPc (pcRelative s1 off))

/-- JSRR (R114): R7 is written first, then BaseR is read, so `JSRR R7` falls through (decision D11). -/
def execJsrr (base : Reg) (s : State) : Host.Outcome State Fault Refusal :=
  let s1 := linkReturn s
  .next (s1.setPc (s1.reg base))

end Sys2Proof.Machine
end

