-- ==== Sys2Proof/Machine/Loads.lean ====
section
/-! DEFINITION. Loads and address computation: LD, LDI, LDR, LEA (43_loads.md R120 to R124). Every memory read is the read
path of 20_memory.md R42. -/

namespace Sys2Proof.Machine

/-- Read a word through the read path into a register and set the flags from it. -/
def loadFrom (dr : Reg) (ea : Word) (s : State) : State :=
  let (r, s1) := s.memRead ea
  s1.writeResult dr r

/-- LD (R120). -/
def execLd (dr : Reg) (off : BitVec 9) (s : State) : Host.Outcome State Fault Refusal :=
  .next (loadFrom dr (pcRelative s off) s)

/-- LDI (R121): two reads, both through the read path. -/
def execLdi (dr : Reg) (off : BitVec 9) (s : State) : Host.Outcome State Fault Refusal :=
  let (ea, s1) := indirect s off
  .next (loadFrom dr ea s1)

/-- LDR (R122): the address is computed before the write, so DR may be BaseR. -/
def execLdr (dr base : Reg) (off : BitVec 6) (s : State) : Host.Outcome State Fault Refusal :=
  .next (loadFrom dr (baseOffset s base off) s)

/-- LEA (R123): no memory access; the flags are set from the address. -/
def execLea (dr : Reg) (off : BitVec 9) (s : State) : Host.Outcome State Fault Refusal :=
  .next (s.writeResult dr (pcRelative s off))

end Sys2Proof.Machine
end

