-- ==== Sys2Proof/Machine/Operate.lean ====
section
/-! DEFINITION. Operate instructions: ADD, AND, NOT (41_operate.md R100 to R103). -/

namespace Sys2Proof.Machine

/-- ADD, register mode (R100): the sum modulo 2^16, no overflow signal. -/
def execAddReg (dr sr1 sr2 : Reg) (s : State) : Host.Outcome State Fault Refusal :=
  .next (s.writeResult dr (s.reg sr1 + op2Reg s sr2))

/-- ADD, immediate mode (R100). -/
def execAddImm (dr sr1 : Reg) (imm : BitVec 5) (s : State) : Host.Outcome State Fault Refusal :=
  .next (s.writeResult dr (s.reg sr1 + op2Imm imm))

/-- AND, register mode (R101). -/
def execAndReg (dr sr1 sr2 : Reg) (s : State) : Host.Outcome State Fault Refusal :=
  .next (s.writeResult dr (s.reg sr1 &&& op2Reg s sr2))

/-- AND, immediate mode (R101). -/
def execAndImm (dr sr1 : Reg) (imm : BitVec 5) (s : State) : Host.Outcome State Fault Refusal :=
  .next (s.writeResult dr (s.reg sr1 &&& op2Imm imm))

/-- NOT (R102): all 16 bits inverted. -/
def execNot (dr sr : Reg) (s : State) : Host.Outcome State Fault Refusal :=
  .next (s.writeResult dr (~~~ (s.reg sr)))

end Sys2Proof.Machine
end

