-- ==== Sys2Proof/Machine/Stores.lean ====
section
/-! DEFINITION. Stores: ST, STI, STR (44_stores.md R130 to R132). Every store is a plain write (20_memory.md R46). -/

namespace Sys2Proof.Machine

/-- ST (R130). -/
def execSt (sr : Reg) (off : BitVec 9) (s : State) : Host.Outcome State Fault Refusal :=
  .next (s.memWrite (pcRelative s off) (s.reg sr))

/-- STI (R131): the pointer is read through the read path, then the store. -/
def execSti (sr : Reg) (off : BitVec 9) (s : State) : Host.Outcome State Fault Refusal :=
  let (ea, s1) := indirect s off
  .next (s1.memWrite ea (s1.reg sr))

/-- STR (R132). -/
def execStr (sr base : Reg) (off : BitVec 6) (s : State) : Host.Outcome State Fault Refusal :=
  .next (s.memWrite (baseOffset s base off) (s.reg sr))

end Sys2Proof.Machine
end

