-- ==== Sys2Proof/Syntax.lean ====
section
/-! DEFINITION. The instructions: one constructor for each row of spec/opcode_table.json. -/

namespace Sys2Proof

/-- The 26 rows of the opcode table. The arguments are the fields of 30_encoding.md R61 and R69; an argument named
`ign…` is an ignored field (R73), kept because a fatal error records the whole word (60_exceptions.md R160: log 9). -/
inductive Instr where
  /-- HALT_SENTINEL: the all-zero word (40_cycle.md R94). -/
  | haltSentinel
  /-- BR (42_control.md R110). -/
  | br (n z p : Bool) (off : BitVec 9)
  /-- ADD, register mode (41_operate.md R100). -/
  | addReg (dr sr1 sr2 : Reg) (ign : BitVec 2)
  /-- ADD, immediate mode (41_operate.md R100). -/
  | addImm (dr sr1 : Reg) (imm : BitVec 5)
  /-- LD (43_loads.md R120). -/
  | ld (dr : Reg) (off : BitVec 9)
  /-- ST (44_stores.md R130). -/
  | st (sr : Reg) (off : BitVec 9)
  /-- JSR (42_control.md R113). -/
  | jsr (off : BitVec 11)
  /-- JSRR (42_control.md R114); ignored: [10:9] and [5:0]. -/
  | jsrr (base : Reg) (ignHi : BitVec 2) (ignLo : BitVec 6)
  /-- AND, register mode (41_operate.md R101). -/
  | andReg (dr sr1 sr2 : Reg) (ign : BitVec 2)
  /-- AND, immediate mode (41_operate.md R101). -/
  | andImm (dr sr1 : Reg) (imm : BitVec 5)
  /-- LDR (43_loads.md R122). -/
  | ldr (dr base : Reg) (off : BitVec 6)
  /-- STR (44_stores.md R132). -/
  | str (sr base : Reg) (off : BitVec 6)
  /-- RTI (45_trap.md R152). -/
  | rti (ign : BitVec 12)
  /-- NOT (41_operate.md R102). -/
  | not (dr sr : Reg) (ign : BitVec 6)
  /-- LDI (43_loads.md R121). -/
  | ldi (dr : Reg) (off : BitVec 9)
  /-- STI (44_stores.md R131). -/
  | sti (sr : Reg) (off : BitVec 9)
  /-- JMP; RET is `jmp 7` (42_control.md R112); ignored: [11:9] and [5:0]. -/
  | jmp (base : Reg) (ignHi : BitVec 3) (ignLo : BitVec 6)
  /-- RES, the reserved opcode 13 (45_trap.md R153). -/
  | res (ign : BitVec 12)
  /-- LEA (43_loads.md R123). -/
  | lea (dr : Reg) (off : BitVec 9)
  /-- TRAP with a vector that has no row of its own (45_trap.md R140, R151). -/
  | trap (ign : BitVec 4) (vec : BitVec 8)
  /-- TRAP x20, GETC (45_trap.md R145). -/
  | getc (ign : BitVec 4)
  /-- TRAP x21, OUT (45_trap.md R146). -/
  | out (ign : BitVec 4)
  /-- TRAP x22, PUTS (45_trap.md R147). -/
  | puts (ign : BitVec 4)
  /-- TRAP x23, IN (45_trap.md R148). -/
  | inChar (ign : BitVec 4)
  /-- TRAP x24, PUTSP (45_trap.md R149). -/
  | putsp (ign : BitVec 4)
  /-- TRAP x25, HALT (45_trap.md R150). -/
  | halt (ign : BitVec 4)
  deriving DecidableEq, Repr

end Sys2Proof
end

