-- ==== Sys2Proof/WellFormed.lean ====
section
/-! DEFINITION. Which terms of `Instr` are the instruction some word stands for. Register numbers and field widths are
checked by their types; what is left is that a word belongs to the most specific row that matches it (30_encoding.md R72). -/

namespace Sys2Proof

/-- A vector with a row of its own in the opcode table: 0x20 to 0x25 (45_trap.md R143). -/
def hasTrapRow (vec : BitVec 8) : Bool :=
  0x20 ≤ vec.toNat && vec.toNat ≤ 0x25

/-- The instruction is the reading of its own word: a BR is not the all-zero word (40_cycle.md R94, 30_encoding.md R72),
and the generic TRAP row has no vector of another row (R72). -/
def Instr.wellFormed : Instr → Bool
  | .br n z p off => n || z || p || off != 0
  | .trap _ vec => !hasTrapRow vec
  | .haltSentinel => true
  | .addReg _ _ _ _ => true
  | .addImm _ _ _ => true
  | .ld _ _ => true
  | .st _ _ => true
  | .jsr _ => true
  | .jsrr _ _ _ => true
  | .andReg _ _ _ _ => true
  | .andImm _ _ _ => true
  | .ldr _ _ _ => true
  | .str _ _ _ => true
  | .rti _ => true
  | .not _ _ _ => true
  | .ldi _ _ => true
  | .sti _ _ => true
  | .jmp _ _ _ => true
  | .res _ => true
  | .lea _ _ => true
  | .getc _ => true
  | .out _ => true
  | .puts _ => true
  | .inChar _ => true
  | .putsp _ => true
  | .halt _ => true

end Sys2Proof
end

