-- ==== Sys2Proof/Decode.lean ====
section
/-! DEFINITION. The Instruction Decoder of 30_encoding.md (R60 to R73): bit-field extraction, the `kind` output, the
decoding of a word, and after it the encoder, written from the formats of R69 and the opcode numbers of R70. -/

namespace Sys2Proof

/-- The source's `chunk(lo, hi)` of R61, as a field of `len` = hi - lo + 1 bits: `(instr >> lo) & mask_of_length(len)`. -/
def chunk (w : Word) (lo len : Nat) : BitVec len :=
  BitVec.ofNat len (w.toNat >>> lo)

/-- A 3-bit register field as the register it names directly (R67). -/
def regField (w : Word) (lo : Nat) : Reg :=
  (chunk w lo 3).toFin

/-- The decoder's field outputs (R61); every one is extracted from every word. -/
structure Fields where
  opcode : BitVec 4
  /-- `DR`, for stores the source register SR (R62). -/
  dr : Reg
  /-- `SR1`, for JMP, JSRR, LDR and STR the base register (R63). -/
  sr1 : Reg
  mode : Bool
  imm5 : BitVec 5
  sr2 : Reg
  offset6 : BitVec 6
  pcOffset9 : BitVec 9
  pcOffset11 : BitVec 11
  trapvect8 : BitVec 8
  n : Bool
  z : Bool
  p : Bool
  /-- NOT instr[11] (decision D10: log 16). -/
  isBaseRegisterForm : Bool
  allZero : Bool
  deriving DecidableEq, Repr

/-- The fields of a word (R61). -/
def fields (w : Word) : Fields where
  opcode := chunk w 12 4
  dr := regField w 9
  sr1 := regField w 6
  mode := w.getLsbD 5
  imm5 := chunk w 0 5
  sr2 := regField w 0
  offset6 := chunk w 0 6
  pcOffset9 := chunk w 0 9
  pcOffset11 := chunk w 0 11
  trapvect8 := chunk w 0 8
  n := w.getLsbD 11
  z := w.getLsbD 10
  p := w.getLsbD 9
  isBaseRegisterForm := !w.getLsbD 11
  allZero := w == 0

/-- The `kind` output (R71): one value per opcode, and the explicit `undefined` case. -/
inductive Kind where
  | br | add | ld | st | jsr | and | ldr | str | rti | not | ldi | sti | jmp | res | lea | trap | undefined
  deriving DecidableEq, Repr

/-- The opcode map of R70 (numbers from general knowledge but 13, D3: log 16). No 4-bit opcode reaches the last arm. -/
def kindOf (opcode : BitVec 4) : Kind :=
  match opcode.toNat with
  | 0 => .br
  | 1 => .add
  | 2 => .ld
  | 3 => .st
  | 4 => .jsr
  | 5 => .and
  | 6 => .ldr
  | 7 => .str
  | 8 => .rti
  | 9 => .not
  | 10 => .ldi
  | 11 => .sti
  | 12 => .jmp
  | 13 => .res
  | 14 => .lea
  | 15 => .trap
  | _ => .undefined

/-- Why the decoder gives no instruction: an opcode outside the defined set (R71, 40_cycle.md R95). No word is so
rejected (R74; 90_conflicts.md C2: log 15). -/
inductive DecodeReject where
  | undefinedOpcode (word : Word)
  deriving DecidableEq, Repr

/-- The row of a TRAP word: the vector's own row where it has one, else the generic row (R72, 45_trap.md R143). -/
def decodeTrap (ign : BitVec 4) (vec : BitVec 8) : Instr :=
  match vec.toNat with
  | 0x20 => .getc ign
  | 0x21 => .out ign
  | 0x22 => .puts ign
  | 0x23 => .inChar ign
  | 0x24 => .putsp ign
  | 0x25 => .halt ign
  | _ => .trap ign vec

/-- The decoder, total on words, in the matching order of R72: the sentinel, the opcode, instr[11] for JSR and JSRR,
instr[5] for ADD and AND, the vector for TRAP. -/
def decode (w : Word) : Except DecodeReject Instr :=
  let f := fields w
  if f.allZero then .ok .haltSentinel
  else match kindOf f.opcode with
    | .br => .ok (.br f.n f.z f.p f.pcOffset9)
    | .add => .ok (if f.mode then .addImm f.dr f.sr1 f.imm5 else .addReg f.dr f.sr1 f.sr2 (chunk w 3 2))
    | .ld => .ok (.ld f.dr f.pcOffset9)
    | .st => .ok (.st f.dr f.pcOffset9)
    | .jsr => .ok (if f.isBaseRegisterForm then .jsrr f.sr1 (chunk w 9 2) (chunk w 0 6) else .jsr f.pcOffset11)
    | .and => .ok (if f.mode then .andImm f.dr f.sr1 f.imm5 else .andReg f.dr f.sr1 f.sr2 (chunk w 3 2))
    | .ldr => .ok (.ldr f.dr f.sr1 f.offset6)
    | .str => .ok (.str f.dr f.sr1 f.offset6)
    | .rti => .ok (.rti (chunk w 0 12))
    | .not => .ok (.not f.dr f.sr1 (chunk w 0 6))
    | .ldi => .ok (.ldi f.dr f.pcOffset9)
    | .sti => .ok (.sti f.dr f.pcOffset9)
    | .jmp => .ok (.jmp f.sr1 (chunk w 9 3) (chunk w 0 6))
    | .res => .ok (.res (chunk w 0 12))
    | .lea => .ok (.lea f.dr f.pcOffset9)
    | .trap => .ok (decodeTrap (chunk w 8 4) f.trapvect8)
    | .undefined => .error (.undefinedOpcode w)

/-- The instruction the decoder reads from the one-word instruction whose table bits are `w` (bits above `nbits` zero). -/
def decodeTableWord (nbits w : Nat) : Option Instr :=
  match decode (BitVec.ofNat 16 (w % 2 ^ nbits)) with
  | .ok i => some i
  | .error _ => none

/-- The 3 bits of a register number (R67). -/
def regBits (r : Reg) : BitVec 3 := BitVec.ofFin r

/-- The fields of a format (R69), whose widths sum to 16, as one word. -/
def asWord {n : Nat} (v : BitVec n) (h : n = 16 := by rfl) : Word := v.cast h

/-- The word of a TRAP row (format TRAP of R69). -/
def encodeTrap (ign : BitVec 4) (vec : BitVec 8) : Word := asWord (0b1111#4 ++ ign ++ vec)

/-- The word of an instruction, from the formats of R69 and the numbers of R70 and 45_trap.md R143. -/
def encode : Instr → Word
  | .haltSentinel => 0x0000
  | .br n z p off => asWord (0b0000#4 ++ BitVec.ofBool n ++ BitVec.ofBool z ++ BitVec.ofBool p ++ off)
  | .addReg dr sr1 sr2 ign => asWord (0b0001#4 ++ regBits dr ++ regBits sr1 ++ 0b0#1 ++ ign ++ regBits sr2)
  | .addImm dr sr1 imm => asWord (0b0001#4 ++ regBits dr ++ regBits sr1 ++ 0b1#1 ++ imm)
  | .ld dr off => asWord (0b0010#4 ++ regBits dr ++ off)
  | .st sr off => asWord (0b0011#4 ++ regBits sr ++ off)
  | .jsr off => asWord (0b0100#4 ++ 0b1#1 ++ off)
  | .jsrr base ignHi ignLo => asWord (0b0100#4 ++ 0b0#1 ++ ignHi ++ regBits base ++ ignLo)
  | .andReg dr sr1 sr2 ign => asWord (0b0101#4 ++ regBits dr ++ regBits sr1 ++ 0b0#1 ++ ign ++ regBits sr2)
  | .andImm dr sr1 imm => asWord (0b0101#4 ++ regBits dr ++ regBits sr1 ++ 0b1#1 ++ imm)
  | .ldr dr base off => asWord (0b0110#4 ++ regBits dr ++ regBits base ++ off)
  | .str sr base off => asWord (0b0111#4 ++ regBits sr ++ regBits base ++ off)
  | .rti ign => asWord (0b1000#4 ++ ign)
  | .not dr sr ign => asWord (0b1001#4 ++ regBits dr ++ regBits sr ++ ign)
  | .ldi dr off => asWord (0b1010#4 ++ regBits dr ++ off)
  | .sti sr off => asWord (0b1011#4 ++ regBits sr ++ off)
  | .jmp base ignHi ignLo => asWord (0b1100#4 ++ ignHi ++ regBits base ++ ignLo)
  | .res ign => asWord (0b1101#4 ++ ign)
  | .lea dr off => asWord (0b1110#4 ++ regBits dr ++ off)
  | .trap ign vec => encodeTrap ign vec
  | .getc ign => encodeTrap ign 0x20
  | .out ign => encodeTrap ign 0x21
  | .puts ign => encodeTrap ign 0x22
  | .inChar ign => encodeTrap ign 0x23
  | .putsp ign => encodeTrap ign 0x24
  | .halt ign => encodeTrap ign 0x25

end Sys2Proof
end

