-- ==== Sys2Proof/Machine/Trap.lean ====
section
/-! DEFINITION. TRAP and the trap dispatcher (45_trap.md R140 to R151, R154), RTI and RES (R152, R153). A service runs
inside the TRAP step; `pc` keeps the advanced value. -/

namespace Sys2Proof.Machine

/-- Mark which service is in progress, or none. -/
def State.setHold (s : State) (h : Hold) : State := { s with hold := h }

/-- The GETC service (R145): R0 <- zext_8(KbRead()), no echo, no flags. With no character the step holds, and nothing
changes but the mark that GETC is in progress (40_cycle.md R90: log 5). -/
def getcService (s : State) : State :=
  match s.kbRead with
  | some (c, s1) => (s1.setReg 0 (zext8 c)).setHold .idle
  | none => s.setHold .getc

/-- The OUT service (R146): bits 7:0 of R0, then a flush. -/
def outService (s : State) : State := (s.outWrite (lowByte (s.reg 0))).outFlush

/-- The PUTS loop (R147) from address `a` for at most `fuel` words: read through the read path, stop and flush at a word
that is zero as a whole, else write its low byte and go on at `a + 1` modulo 2^16. Where `fuel` words hold no zero word the
scan stays in progress (log 6). -/
def putsScan : Nat → Word → State → State
  | 0, a, s => s.setHold (.puts a)
  | fuel + 1, a, s =>
    let (w, s1) := s.memRead a
    if w = 0x0000 then s1.outFlush.setHold .idle
    else putsScan fuel (a + 1) (s1.outWrite (lowByte w))

/-- Words after which a scan that has met no zero word meets none unless new input comes: one round of the address space
for each moment of input to come, and one more (log 6). -/
def putsFuel (s : State) : Nat := Config.memWords * (s.kbIn.length + 1)

/-- The PUTS service (R147) from address `a`. -/
def putsService (a : Word) (s : State) : State := putsScan (putsFuel s) a s

/-- An unimplemented or unknown vector (R144, R148, R149, R151): fatal, with the whole fetched word recorded. -/
def unknownVector (ign : BitVec 4) (vec : BitVec 8) (s : State) : State :=
  s.raiseFatal .unknownTrapVector (encodeTrap ign vec)

/-- `TrapService(v)` (R144), whole: the generic row's dispatch. For a vector with a row of its own it is that row's service. -/
def trapService (ign : BitVec 4) (vec : BitVec 8) (s : State) : State :=
  match vec.toNat with
  | 0x20 => getcService s
  | 0x21 => outService s
  | 0x22 => putsService (s.reg 0) s
  | 0x25 => s.halt
  | _ => unknownVector ign vec s

/-- TRAP (R140): R7 <- pc, then the dispatch. -/
def execTrap (ign : BitVec 4) (vec : BitVec 8) (s : State) : Host.Outcome State Fault Refusal :=
  .next (trapService ign vec s.trapEntry)

/-- TRAP x20, GETC (R145). -/
def execGetc (s : State) : Host.Outcome State Fault Refusal :=
  .next (getcService s.trapEntry)

/-- TRAP x21, OUT (R146). -/
def execOut (s : State) : Host.Outcome State Fault Refusal :=
  .next (outService s.trapEntry)

/-- TRAP x22, PUTS (R147). -/
def execPuts (s : State) : Host.Outcome State Fault Refusal :=
  .next (putsService (s.trapEntry.reg 0) s.trapEntry)

/-- TRAP x23, IN (R148): not implemented, fatal after the R7 write, no device call. -/
def execIn (ign : BitVec 4) (s : State) : Host.Outcome State Fault Refusal :=
  .next (unknownVector ign 0x23 s.trapEntry)

/-- TRAP x24, PUTSP (R149): not implemented, fatal after the R7 write, no device call, no memory read. -/
def execPutsp (ign : BitVec 4) (s : State) : Host.Outcome State Fault Refusal :=
  .next (unknownVector ign 0x24 s.trapEntry)

/-- TRAP x25, HALT (R150): halt after the R7 write, no output, no flush. -/
def execHalt (s : State) : Host.Outcome State Fault Refusal :=
  .next s.trapEntry.halt

/-- RTI (R152): fatal; nothing is written besides the pc advance. -/
def execRti (ign : BitVec 12) (s : State) : Host.Outcome State Fault Refusal :=
  .next (s.raiseFatal .unimplementedOpcode (encode (.rti ign)))

/-- RES (R153): fatal; nothing is written besides the pc advance. -/
def execRes (ign : BitVec 12) (s : State) : Host.Outcome State Fault Refusal :=
  .next (s.raiseFatal .unimplementedOpcode (encode (.res ign)))

end Sys2Proof.Machine
end

