-- ==== Sys2Proof/Machine/Cycle.lean ====
section
/-! DEFINITION. One step of the fetch-decode-execute state machine (40_cycle.md R90 to R97). -/

namespace Sys2Proof.Machine

/-- Fetch through the read path, then advance pc modulo 2^16 (R91, R92). -/
def fetchAdvance (s : State) : Word × State :=
  let (w, s1) := s.memRead s.pc
  (w, s1.setPc (s1.pc + 1))

/-- Decode and execute a fetched word: the sentinel test and the dispatch of R93. An opcode outside the defined set
halts gracefully (R95); no word is one (log 15). -/
def executeWord (w : Word) (s : State) : Host.Outcome State Fault Refusal :=
  match decode w with
  | .ok i => exec i s
  | .error _ => .next s.halt

/-- A whole step from a fetch (R93). -/
def fetchExecute (s : State) : Host.Outcome State Fault Refusal :=
  let (w, s1) := fetchAdvance s
  executeWord w s1

/-- Go on with the step in progress: a GETC that waits, a PUTS scan that has met no zero word (R90: log 5, log 6). -/
def resume (s : State) : Host.Outcome State Fault Refusal :=
  match s.hold with
  | .idle => fetchExecute s
  | .getc => .next (getcService s)
  | .puts a => .next (putsService a s)

/-- The step (R93) as the transitions of R90: enabled only in RUNNING; HALTED and FAULTED stay unchanged (log 7). -/
def cycle (s : State) : Host.Outcome State Fault Refusal :=
  match s.runState with
  | .running => resume s
  | .halted => .next s
  | .faulted _ _ _ => .next s

/-- The state with `w` stored where the next fetch reads it, RUNNING and with no step in progress (log 14). -/
def placeWord (s : State) (w : Word) : State :=
  { s.memWrite s.pc w with runState := .running, hold := .idle }

end Sys2Proof.Machine
end

