-- ==== Sys2Proof/Machine/Step.lean ====
section
/-! DEFINITION. The step function and the placing of a word where it fetches. -/

namespace Sys2Proof.Machine

/-- One step (40_cycle.md R90, R93). -/
def step (s : State) : Host.Outcome State Fault Refusal := cycle s

/-- `s` with the one-word instruction whose table bits are `w` stored where `step` fetches next, RUNNING and with no step
in progress, so that the next step runs it. It stands for a program loaded by `init_memory` (log 12, log 14). -/
def State.withFetchWord (s : State) (nbits w : Nat) : State := placeWord s (BitVec.ofNat 16 (w % 2 ^ nbits))

end Sys2Proof.Machine
end

