-- ==== Sys2Proof/Safety.lean ====
section
/-! DEFINITION. What counts as a legal state and a safe run, in the terms the claims use. -/

namespace Sys2Proof.Machine

/-- The four values `cond` may hold (10_state.md R26). -/
abbrev condLegal (c : Word) : Prop :=
  c = condNegative ∨ c = condZero ∨ c = condPositive ∨ c = condNone

/-- The words whose execution is the fatal error of a kind (60_exceptions.md R162): opcodes 8 and 13; TRAP with a vector
other than GETC, OUT, PUTS and HALT. -/
def faultWord : FaultKind → Word → Prop
  | .unimplementedOpcode, w => (fields w).opcode = 8 ∨ (fields w).opcode = 13
  | .unknownTrapVector, w =>
    (fields w).opcode = 15 ∧ (fields w).trapvect8 ≠ 0x20 ∧ (fields w).trapvect8 ≠ 0x21 ∧
      (fields w).trapvect8 ≠ 0x22 ∧ (fields w).trapvect8 ≠ 0x25

/-- What a fault record says of the state that holds it (60_exceptions.md R160, R162): the word is one that raises that
kind, pc is one past the recorded address, and after an unknown vector R7 holds that pc too. -/
def State.faultRecordOk (s : State) : Prop :=
  ∀ kind instr addr, s.runState = .faulted kind instr addr →
    faultWord kind instr ∧ s.pc = addr + 1 ∧ (kind = .unknownTrapVector → s.reg 7 = addr + 1)

/-- The invariant of the machine. It holds at reset and every step keeps it (claims, not part of the definition). -/
structure State.Inv (s : State) : Prop where
  /-- Memory is in canonical form. -/
  memWf : s.mem.wf
  /-- `cond` holds one of its four values (10_state.md R26). -/
  cond : condLegal s.cond
  /-- Only a RUNNING machine has a step in progress (40_cycle.md R90). -/
  holdRunning : s.hold ≠ .idle → s.runState = .running
  /-- The fault record is true of the state. -/
  faultRecord : s.faultRecordOk

/-- `t` is reached from `s` by some number of steps. -/
inductive Steps : State → State → Prop where
  | refl (s : State) : Steps s s
  | tail {s t u : State} : Steps s t → step t = .next u → Steps s u

/-- The run has ended in a fatal error (60_exceptions.md R160). -/
def State.endedFatal (s : State) : Prop := ∃ kind instr addr, s.runState = .faulted kind instr addr

/-- A safe run: no state it reaches has ended in a fatal error. -/
def RunSafe (s : State) : Prop := ∀ t, Steps s t → ¬ t.endedFatal

/-- Ready to fetch: RUNNING with no step in progress (40_cycle.md R90, R93). -/
def State.ready (s : State) : Prop := s.runState = .running ∧ s.hold = .idle

end Sys2Proof.Machine
end

