-- ==== Sys2Proof/Certificates/Slice0/Obligations.lean ====
section
/-! DEFINITION. The statements for the provers. Memory is word-addressed (20_memory.md R40): the machine's read of its
smallest unit is `Memory.readWord`, and "every word reads as before" covers every byte of the model's cells inside the
address space. `pc` in a statement about `exec` is the advanced pc (40_cycle.md R92). -/

open Sys2Proof Sys2Proof.Machine

namespace Sys2Proof.Claims

/-! ### What is left unchanged from `s` to `t` -/

/-- Every register but those listed. -/
def regsSameBut (rs : List Reg) (s t : State) : Prop := ∀ r, r ∉ rs → t.reg r = s.reg r

/-- Every word of memory. -/
def memSame (s t : State) : Prop := ∀ a, t.mem.readWord a = s.mem.readWord a

/-- Every word of memory but those listed. -/
def memSameBut (as : List Word) (s t : State) : Prop := ∀ a, a ∉ as → t.mem.readWord a = s.mem.readWord a

/-- No device call is made and no moment of input passes. -/
def deviceSame (s t : State) : Prop := t.kbIn = s.kbIn ∧ t.trace = s.trace

/-- run_state with its fault record, the step in progress and the configuration. -/
def engineSame (s t : State) : Prop := t.runState = s.runState ∧ t.hold = s.hold ∧ t.config = s.config

/-- `t` has the flags of the signed result `r` (10_state.md R27). -/
def flagsOfSigned (r : Word) (t : State) : Prop :=
  (t.cond = condNegative ↔ r.toInt < 0) ∧ (t.cond = condZero ↔ r = 0) ∧ (t.cond = condPositive ↔ 0 < r.toInt)

/-- The whole frame of an instruction that writes `x[dr]` and the flags and touches neither memory nor the device. -/
def operateFrame (dr : Reg) (s t : State) : Prop :=
  flagsOfSigned (t.reg dr) t ∧ regsSameBut [dr] s t ∧ t.pc = s.pc ∧ memSame s t ∧ deviceSame s t ∧ engineSame s t

/-- The whole effect of a load of `x[dr]` from `ea`, `m` being the state before that read: one pass of the read path. -/
def loadEffect (dr : Reg) (ea : Word) (s m t : State) : Prop :=
  t.reg dr = (m.memRead ea).1 ∧ flagsOfSigned (t.reg dr) t ∧ regsSameBut [dr] s t ∧ t.pc = s.pc ∧
    memSame (m.memRead ea).2 t ∧ deviceSame (m.memRead ea).2 t ∧ engineSame s t

/-- The whole effect of a store of `v` at `ea`, `m` being the state before the store. -/
def storeEffect (ea v : Word) (s m t : State) : Prop :=
  (m.mem.wf → t.mem.readWord ea = v) ∧ memSameBut [ea] m t ∧ regsSameBut [] s t ∧ t.pc = s.pc ∧ t.cond = s.cond ∧
    deviceSame m t ∧ engineSame s t

/-- The frame of an instruction that writes only the registers listed, pc and nothing else. -/
def jumpFrame (rs : List Reg) (s t : State) : Prop :=
  regsSameBut rs s t ∧ t.cond = s.cond ∧ memSame s t ∧ deviceSame s t ∧ engineSame s t

/-- The word the next step fetches. -/
def fetched (s : State) : Word := (s.memRead s.pc).1

/-- A fetched word that is TRAP with the given vector; bits 11:8 are ignored (30_encoding.md R73). -/
def isTrap (w : Word) (vec : BitVec 8) : Prop := (fields w).opcode = 15 ∧ (fields w).trapvect8 = vec

/-- The destination of a flag-affecting instruction (10_state.md R28). -/
def flagDest : Instr → Option Reg
  | .addReg dr _ _ _ | .addImm dr _ _ | .andReg dr _ _ _ | .andImm dr _ _ | .not dr _ _ | .ld dr _ | .ldi dr _
  | .ldr dr _ _ | .lea dr _ => some dr
  | _ => none

/-- The instructions that write the return address into R7 (10_state.md R21). -/
def linksR7 : Instr → Bool
  | .jsr _ | .jsrr _ _ _ | .trap _ _ | .getc _ | .out _ | .puts _ | .inChar _ | .putsp _ | .halt _ => true
  | _ => false

/-- The general registers an instruction writes, by the table of 10_state.md R21. -/
def regsWritten (i : Instr) : List Reg :=
  (flagDest i).toList ++ (if linksR7 i then [(7 : Reg)] else []) ++ (match i with | .getc _ => [(0 : Reg)] | _ => [])

/-- The instructions that write pc (10_state.md R21, R24). -/
def writesPc : Instr → Bool
  | .br _ _ _ _ | .jmp _ _ _ | .jsr _ | .jsrr _ _ _ => true
  | _ => false

/-- The store instructions (20_memory.md R47). -/
def isStore : Instr → Bool
  | .st _ _ | .sti _ _ | .str _ _ _ => true
  | _ => false

/-- The address a store instruction stores to, computed as its meaning computes it. -/
def storeAddr (s : State) : Instr → Option Word
  | .st _ off => some (pcRelative s off)
  | .sti _ off => some (indirect s off).1
  | .str _ base off => some (baseOffset s base off)
  | _ => none

/-- The register a store instruction stores. -/
def storeSource : Instr → Option Reg
  | .st sr _ | .sti sr _ | .str sr _ _ => some sr
  | _ => none

/-- No status read was made between `s` and `t`: the calls added to the trace hold no `KbAvail` (20_memory.md R42). -/
def noStatusRead (s t : State) : Prop := ∀ b, DevEvent.kbAvail b ∉ t.trace.drop s.trace.length

/-- The loop of PUTS (45_trap.md R147) has gone from address `a` in state `s` to address `b` in state `u`: every word read,
through the read path, was non-zero, and its bits 7:0 were written. -/
inductive PutsLoop : Word → State → Word → State → Prop where
  | here (a : Word) (s : State) : PutsLoop a s a s
  | word {a b : Word} {s u : State} : (s.memRead a).1 ≠ 0 →
      PutsLoop (a + 1) ((s.memRead a).2.record (.outWrite (BitVec.ofNat 8 (s.memRead a).1.toNat))) b u → PutsLoop a s b u

/-- The loop from `a` in `s` reads a zero word, flushes, and so ends in `t`, with no step in progress. -/
def putsEnds (a : Word) (s t : State) : Prop :=
  ∃ b u, PutsLoop a s b u ∧ (u.memRead b).1 = 0 ∧ t = { (u.memRead b).2.record .outFlush with hold := .idle }

/-- The loop from `a` in `s` has come to `t` and stays in progress there (log 6). -/
def putsGoesOn (a : Word) (s t : State) : Prop := ∃ b u, PutsLoop a s b u ∧ t = { u with hold := .puts b }

/-- The instructions that make no memory read and no GETC, so take nothing from the device. -/
def takesNoInput : Instr → Bool
  | .ld _ _ | .ldi _ _ | .ldr _ _ _ | .sti _ _ | .getc _ | .puts _ | .trap _ _ => false
  | _ => true

/-- The bits of a word that the decoder ignores, by the table of 30_encoding.md R73. -/
def ignoredMask (w : Word) : Word :=
  if w &&& 0xF020 = 0x1000 ∨ w &&& 0xF020 = 0x5000 then 0x0018
  else if w &&& 0xF000 = 0x9000 then 0x003F
  else if w &&& 0xF000 = 0xC000 then 0x0E3F
  else if w &&& 0xF800 = 0x4000 then 0x063F
  else if w &&& 0xF000 = 0xF000 then 0x0F00
  else if w &&& 0xF000 = 0x8000 ∨ w &&& 0xF000 = 0xD000 then 0x0FFF
  else 0

/-- A state with the word of its fault record, if it has one, replaced. -/
def recordWord (w : Word) (t : State) : State :=
  match t.runState with
  | .faulted kind _ addr => { t with runState := .faulted kind w addr }
  | _ => t

end Sys2Proof.Claims

open Sys2Proof.Claims

/-! ### Words, decoder and encoder -/

/-- R9: where bit N-1 is set `sext_N` ORs ones shifted left by N-1, otherwise it leaves the field; so it replicates bit N-1,
for every N from 1 to 16 (for 5, 6, 9 and 11 among them), and keeps the signed value; `zext_8` puts zeros above. -/
def Obligations.SignExtensionReplicatesTheSignBit : Prop :=
  (∀ (n : Nat) (v : BitVec n), 0 < n → n ≤ 16 →
    (v.getLsbD (n - 1) = true → sext v = BitVec.ofNat 16 (v.toNat ||| ((0xFFFF <<< (n - 1)) &&& 0xFFFF))) ∧
    (v.getLsbD (n - 1) = false → (sext v).toNat = v.toNat) ∧
    (∀ k < 16, (sext v).getLsbD k = if k < n then v.getLsbD k else v.getLsbD (n - 1)) ∧ (sext v).toInt = v.toInt) ∧
  (∀ (c : Byte), ∀ k < 16, (zext8 c).getLsbD k = (decide (k < 8) && c.getLsbD k))

/-- 30_encoding.md R61 (polarity of the base-form bit: D10): every field output is its slice of the word, whatever the
opcode. -/
def Obligations.DecoderFieldsAreSlicesOfTheWord : Prop :=
  ∀ w : Word,
    (fields w).opcode.toNat = w.toNat / 4096 ∧ (fields w).dr.val = w.toNat / 512 % 8 ∧
    (fields w).sr1.val = w.toNat / 64 % 8 ∧ ((fields w).mode = true ↔ w.toNat / 32 % 2 = 1) ∧
    (fields w).imm5.toNat = w.toNat % 32 ∧ (fields w).sr2.val = w.toNat % 8 ∧ (fields w).offset6.toNat = w.toNat % 64 ∧
    (fields w).pcOffset9.toNat = w.toNat % 512 ∧ (fields w).pcOffset11.toNat = w.toNat % 2048 ∧
    (fields w).trapvect8.toNat = w.toNat % 256 ∧ ((fields w).n = true ↔ w.toNat / 2048 % 2 = 1) ∧
    ((fields w).z = true ↔ w.toNat / 1024 % 2 = 1) ∧ ((fields w).p = true ↔ w.toNat / 512 % 2 = 1) ∧
    ((fields w).isBaseRegisterForm = true ↔ w.toNat / 2048 % 2 = 0) ∧ ((fields w).allZero = true ↔ w.toNat = 0)

/-- Tier 3, encoding (R69, R70, R72; opcode and vector numbers are D3, D4): decoding the word of a well-formed instruction
gives that instruction, every operand at every value. -/
def Obligations.DecodeOfEncodeIsTheInstruction : Prop :=
  ∀ i : Instr, i.wellFormed = true → decode (encode i) = .ok i

/-- Tier 3, encoding (R60 total, R68, R70, R95 unreachable): every word decodes, to a well-formed instruction whose word it
is. So no word is rejected and no two words decode alike. -/
def Obligations.EveryWordIsTheEncodingOfItsDecoding : Prop :=
  ∀ w : Word, ∃ i : Instr, decode w = .ok i ∧ i.wellFormed = true ∧ encode i = w

/-- Words of 95_test_vectors.md, one per row of the opcode table and more, and the instruction each stands for. -/
def Obligations.SpecWordsDecodeAsWritten : Prop :=
  decode 0x0000 = .ok .haltSentinel ∧ decode 0x0405 = .ok (.br false true false 5) ∧
  decode 0x1401 = .ok (.addReg 2 0 1 0) ∧ decode 0x107D = .ok (.addImm 0 1 (-3)) ∧
  decode 0x2202 = .ok (.ld 1 2) ∧ decode 0x3604 = .ok (.st 3 4) ∧ decode 0x4810 = .ok (.jsr 16) ∧
  decode 0x4080 = .ok (.jsrr 2 0 0) ∧ decode 0x5042 = .ok (.andReg 0 1 2 0) ∧ decode 0x507F = .ok (.andImm 0 1 (-1)) ∧
  decode 0x697F = .ok (.ldr 4 5 (-1)) ∧ decode 0x71A0 = .ok (.str 0 6 (-32)) ∧ decode 0x8000 = .ok (.rti 0) ∧
  decode 0x92BF = .ok (.not 1 2 63) ∧ decode 0xA001 = .ok (.ldi 0 1) ∧ decode 0xB400 = .ok (.sti 2 0) ∧
  decode 0xC1C0 = .ok (.jmp 7 0 0) ∧ decode 0xDFFF = .ok (.res 0xFFF) ∧ decode 0xE1FF = .ok (.lea 0 (-1)) ∧
  decode 0xF026 = .ok (.trap 0 0x26) ∧ decode 0xF020 = .ok (.getc 0) ∧ decode 0xF021 = .ok (.out 0) ∧
  decode 0xF022 = .ok (.puts 0) ∧ decode 0xF023 = .ok (.inChar 0) ∧ decode 0xF024 = .ok (.putsp 0) ∧
  decode 0xFF25 = .ok (.halt 15)

/-- 30_encoding.md R73 (decision D12): words that differ only in ignored bits execute alike, but that a fatal error records
the word itself. -/
def Obligations.IgnoredBitsChangeNothingButTheRecord : Prop :=
  ∀ (w w' : Word) (s t : State), s.runState = .running → (w ^^^ w') &&& ~~~ ignoredMask w = 0 →
    executeWord w s = .next t → executeWord w' s = .next (recordWord w' t)

/-- R64: instr[5] selects operand 2 of ADD and AND, in the decoding of every such word and in its execution. -/
def Obligations.ModeBitSelectsTheSecondOperand : Prop :=
  ∀ (w : Word) (s : State),
    (kindOf (fields w).opcode = .add → ∃ t, executeWord w s = .next t ∧ t.reg (fields w).dr = s.reg (fields w).sr1 +
      (if w.getLsbD 5 then (fields w).imm5.signExtend 16 else s.reg (fields w).sr2)) ∧
    (kindOf (fields w).opcode = .and → ∃ t, executeWord w s = .next t ∧ t.reg (fields w).dr = s.reg (fields w).sr1 &&&
      (if w.getLsbD 5 then (fields w).imm5.signExtend 16 else s.reg (fields w).sr2))

/-! ### The step -/

/-- 40_cycle.md R91 to R93: a ready step reads the word at pc through the read path, advances pc modulo 2^16 and executes
the instruction the word decodes to. The second clause is the fetch away from the status address. -/
def Obligations.StepExecutesTheDecodedInstruction : Prop :=
  (∀ (s : State) (i : Instr), s.ready → decode (fetched s) = .ok i →
    step s = exec i { (s.memRead s.pc).2 with pc := s.pc + 1 }) ∧
  (∀ (s : State) (i : Instr), s.ready → s.pc ≠ s.config.kbsrAddr → decode (s.mem.readWord s.pc) = .ok i →
    step s = exec i { s with pc := s.pc + 1 })

/-- The model's `withFetchWord` (DESIGN CHOICE, log 14): the next step runs exactly the placed instruction. -/
def Obligations.PlacedWordIsTheNextInstruction : Prop :=
  ∀ (s : State) (i : Instr), i.wellFormed = true → s.mem.wf → s.pc ≠ s.config.kbsrAddr →
    step (s.withFetchWord 16 (encode i).toNat) =
      exec i { s.memWrite s.pc (encode i) with pc := s.pc + 1, runState := .running, hold := .idle }

/-- R92: the step advances pc, modulo 2^16, between the fetch and the sentinel test and dispatch, so every terminal outcome
leaves it one past the instruction; and so does every step of an instruction that does not write pc. -/
def Obligations.PcIsAdvancedBeforeDispatch : Prop :=
  ∀ (s t : State), s.ready → step s = .next t →
    executeWord (fetched s) { (s.memRead s.pc).2 with pc := BitVec.ofNat 16 ((s.pc.toNat + 1) % 65536) } = .next t ∧
    (t.runState ≠ .running → t.pc = s.pc + 1) ∧
    (∀ i, decode (fetched s) = .ok i → writesPc i = false → t.pc = s.pc + 1)

/-- R94: the fetched word 0x0000 halts after the advance and writes nothing else; only that word is the sentinel, and a BR
word with n = z = p = 0 and a non-zero offset is a BR; running into uncovered memory halts (the spec's own inference). -/
def Obligations.AllZeroWordHaltsGracefully : Prop :=
  (∀ s : State, s.ready → fetched s = 0 →
    step s = .next { (s.memRead s.pc).2 with pc := s.pc + 1, runState := .halted }) ∧
  (∀ w : Word, decode w = .ok .haltSentinel ↔ w = 0) ∧
  (∀ w : Word, w ≠ 0 → w &&& 0xFE00 = 0 → decode w = .ok (.br false false false ((fields w).pcOffset9))) ∧
  (∀ s : State, s.ready → s.pc ≠ s.config.kbsrAddr → s.mem.readWord s.pc = 0 →
    step s = .next { s with pc := s.pc + 1, runState := .halted })

/-- R96: `halt` makes run_state HALTED and writes nothing else, in both instructions that only halt; HALT writes R7 first
(R150). "No step is enabled" after it has the model's form: the step answers the same state (DEDUCED, log 7). -/
def Obligations.HaltWritesOnlyRunState : Prop :=
  ∀ (s : State) (ign : BitVec 4),
    (∃ t, exec .haltSentinel s = .next t ∧ t.runState = .halted ∧ regsSameBut [] s t ∧ t.pc = s.pc ∧ t.cond = s.cond ∧
      memSame s t ∧ deviceSame s t ∧ t.hold = s.hold ∧ t.config = s.config ∧ step t = .next t) ∧
    (∃ t, exec (.halt ign) s = .next t ∧ t.runState = .halted ∧ t.reg 7 = s.pc ∧ regsSameBut [7] s t ∧ t.pc = s.pc ∧
      t.cond = s.cond ∧ memSame s t ∧ deviceSame s t ∧ t.hold = s.hold ∧ t.config = s.config ∧ step t = .next t)

/-- 10_state.md R30, 40_cycle.md R90 (decision D23; the form "the step answers the same state" is DEDUCED, log 7): HALTED and
FAULTED are terminal, for every number of steps. -/
def Obligations.StoppedMachineNeverChanges : Prop :=
  ∀ s t : State, s.runState ≠ .running → Steps s t → t = s

/-- 60_exceptions.md R162 ("No other condition faults") and log 10: every step of every state answers a next state. -/
def Obligations.EveryStepAnswersANextState : Prop :=
  (∀ (i : Instr) (s : State), ∃ t, exec i s = .next t) ∧ (∀ s : State, ∃ t, step s = .next t)

/-! ### Operate instructions and flags -/

/-- R27: `update_flags(r)` sets exactly one of N, Z, P, by bit 15 and zero, and writes nothing else; after every flag-affecting
instruction exactly one is set. The flags' numbers (D8, log 16) do not enter. -/
def Obligations.UpdateFlagsSetsExactlyOneFlag : Prop :=
  (∀ (s : State) (r : Word),
    ((s.updateFlags r).cond = condNegative ↔ r.getLsbD 15 = true) ∧ ((s.updateFlags r).cond = condZero ↔ r = 0) ∧
    ((s.updateFlags r).cond = condPositive ↔ r ≠ 0 ∧ r.getLsbD 15 = false) ∧
    ((s.updateFlags r).cond = condNegative ∨ (s.updateFlags r).cond = condZero ∨ (s.updateFlags r).cond = condPositive) ∧
    condNegative ≠ condZero ∧ condZero ≠ condPositive ∧ condNegative ≠ condPositive ∧ { s.updateFlags r with cond := s.cond } = s) ∧
  (∀ (i : Instr) (dr : Reg) (s : State), flagDest i = some dr → ∃ t, exec i s = .next t ∧
    (t.cond = condNegative ∨ t.cond = condZero ∨ t.cond = condPositive))

/-- 41_operate.md R100, 00_scope.md R10: ADD in both modes completes on every operand, DR equal to a source among them; the
sum is modulo 2^16; flags and frame. -/
def Obligations.AddWritesTheSumModulo65536 : Prop :=
  (∀ (dr sr1 sr2 : Reg) (ign : BitVec 2) (s : State), ∃ t, exec (.addReg dr sr1 sr2 ign) s = .next t ∧
    (t.reg dr).toNat = ((s.reg sr1).toNat + (s.reg sr2).toNat) % 65536 ∧ operateFrame dr s t) ∧
  (∀ (dr sr1 : Reg) (imm : BitVec 5) (s : State), ∃ t, exec (.addImm dr sr1 imm) s = .next t ∧
    t.reg dr = BitVec.ofInt 16 ((s.reg sr1).toNat + imm.toInt) ∧ operateFrame dr s t)

/-- R101: AND in both modes, bit by bit, the immediate sign-extended; flags and frame. -/
def Obligations.AndWritesTheBitwiseConjunction : Prop :=
  (∀ (dr sr1 sr2 : Reg) (ign : BitVec 2) (s : State), ∃ t, exec (.andReg dr sr1 sr2 ign) s = .next t ∧
    (∀ k, (t.reg dr).getLsbD k = ((s.reg sr1).getLsbD k && (s.reg sr2).getLsbD k)) ∧ operateFrame dr s t) ∧
  (∀ (dr sr1 : Reg) (imm : BitVec 5) (s : State), ∃ t, exec (.andImm dr sr1 imm) s = .next t ∧
    (∀ k < 16, (t.reg dr).getLsbD k = ((s.reg sr1).getLsbD k && imm.getLsbD (min k 4))) ∧ operateFrame dr s t)

/-- R102, R11: NOT inverts all 16 bits; flags and frame. -/
def Obligations.NotInvertsAllSixteenBits : Prop :=
  ∀ (dr sr : Reg) (ign : BitVec 6) (s : State), ∃ t, exec (.not dr sr ign) s = .next t ∧
    (t.reg dr).toNat = 65535 - (s.reg sr).toNat ∧ operateFrame dr s t

/-- 10_state.md R28 (GETC leaves the flags: D13): a flag-affecting instruction leaves the flags of its destination's new
value, every other instruction leaves `cond`. -/
def Obligations.OnlyFlagAffectingInstructionsWriteCond : Prop :=
  ∀ (i : Instr) (s t : State), exec i s = .next t →
    (∀ dr, flagDest i = some dr → flagsOfSigned (t.reg dr) t) ∧ (flagDest i = none → t.cond = s.cond)

/-! ### Who writes what -/

/-- 10_state.md R21, the table: no register but those it lists; R7 gets the return address from JSR, JSRR and every TRAP row; pc
only from BR, JMP, JSR, JSRR; storage by ST, STI, STR only (words other than KBSR and KBDR, R47); RTI and RES end FAULTED. -/
def Obligations.RegisterWritesAreThoseOfTheTable : Prop :=
  ∀ (i : Instr) (s t : State), i.wellFormed = true → exec i s = .next t →
    regsSameBut (regsWritten i) s t ∧ (linksR7 i = true → t.reg 7 = s.pc) ∧
    (writesPc i = false → t.pc = s.pc) ∧
    (isStore i = false → memSameBut [s.config.kbsrAddr, s.config.kbdrAddr] s t) ∧
    (flagDest i = none → t.cond = s.cond) ∧
    ((∃ ign, i = .rti ign ∨ i = .res ign) → t.endedFatal ∧ regsSameBut [] s t)

/-- 20_memory.md R47: over every step, only ST, STI and STR write memory, each the one word it stores to, but for the read
path's own update of KBSR and KBDR, and that only in a step that made a status read. A step that goes on with a trap service
(log 5, log 6) and one of a stopped machine (log 7), forms of the model's own, write none but by such reads. `init_memory`
writes memory and nothing else. -/
def Obligations.OnlyStoresAndStatusReadsChangeMemory : Prop :=
  (∀ (s t : State) (i : Instr), s.ready → step s = .next t → decode (fetched s) = .ok i →
    memSameBut ([s.config.kbsrAddr, s.config.kbdrAddr] ++
      (storeAddr { (s.memRead s.pc).2 with pc := s.pc + 1 } i).toList) s t ∧
    (noStatusRead s t → memSameBut (storeAddr { (s.memRead s.pc).2 with pc := s.pc + 1 } i).toList s t) ∧
    (isStore i = false → noStatusRead s t → t.mem = s.mem)) ∧
  (∀ s t : State, ¬ s.ready → step s = .next t →
    memSameBut [s.config.kbsrAddr, s.config.kbdrAddr] s t ∧ (noStatusRead s t → t.mem = s.mem)) ∧
  (∀ (image : List Word) (s t : State), initMemory image s = .next t → { t with mem := s.mem } = s)

/-- The environment's fields over every step of every state: the trace only grows, input is only consumed, in order, and no
step changes the configuration (log 2, log 3). -/
def Obligations.StepsExtendTheTraceAndConsumeInputInOrder : Prop :=
  ∀ s t : State, Steps s t → s.trace <+: t.trace ∧ t.kbIn <:+ s.kbIn ∧ t.config = s.config

/-- Isolation (10_state.md R32: the core calls the device only in the read path, GETC, OUT and PUTS): an instruction that
makes no memory read and is no GETC gives the same result whatever input is to come. -/
def Obligations.InputReachesOnlyReadsAndGetc : Prop :=
  ∀ (i : Instr) (s t : State) (input : List (Option Byte)), takesNoInput i = true →
    exec i s = .next t → t.kbIn = s.kbIn ∧ exec i { s with kbIn := input } = .next { t with kbIn := input }

/-! ### Control transfer -/

/-- 43_loads.md R124, 30_encoding.md R66, 00_scope.md R10: every address sum is the signed, unscaled word offset added
modulo 2^16 to the advanced pc or to the base register. -/
def Obligations.AddressesAreSignedSumsModulo65536 : Prop :=
  ∀ (s : State) (base : Reg) (o6 : BitVec 6) (o9 : BitVec 9) (o11 : BitVec 11),
    pcRelative s o9 = BitVec.ofInt 16 (s.pc.toNat + o9.toInt) ∧
    pcRelative s o11 = BitVec.ofInt 16 (s.pc.toNat + o11.toInt) ∧
    baseOffset s base o6 = BitVec.ofInt 16 ((s.reg base).toNat + o6.toInt) ∧
    -256 ≤ o9.toInt ∧ o9.toInt ≤ 255 ∧ -1024 ≤ o11.toInt ∧ o11.toInt ≤ 1023 ∧ -32 ≤ o6.toInt ∧ o6.toInt ≤ 31

/-- 42_control.md R110: BR adds its offset exactly when a requested flag is set, and changes nothing but pc. -/
def Obligations.BranchIsTakenOnARequestedFlag : Prop :=
  ∀ (n z p : Bool) (off : BitVec 9) (s : State), ∃ t, exec (.br n z p off) s = .next t ∧
    t.pc = (if (n && s.cond.getLsbD 2) || (z && s.cond.getLsbD 1) || (p && s.cond.getLsbD 0)
      then BitVec.ofInt 16 (s.pc.toNat + off.toInt) else s.pc) ∧ jumpFrame [] s t

/-- R111 and the corner cases of R110, R29 (cond = none at reset: D9): the mask test is the test of the three flags; no
condition bit, or no flag, is never taken; all three are taken on any flag. -/
def Obligations.BranchTestIsTheTestOfTheThreeFlags : Prop :=
  ∀ c : Word, condLegal c →
    (∀ n z p, branchTaken n z p c =
      ((n && decide (c = condNegative)) || (z && decide (c = condZero)) || (p && decide (c = condPositive)))) ∧
    branchTaken false false false c = false ∧ (branchTaken true true true c = true ↔ c ≠ condNone)

/-- R112: JMP loads pc from any base register and writes nothing else. -/
def Obligations.JumpLoadsPcFromTheBaseRegister : Prop :=
  ∀ (base : Reg) (ignHi : BitVec 3) (ignLo : BitVec 6) (s : State), ∃ t,
    exec (.jmp base ignHi ignLo) s = .next t ∧ t.pc = s.reg base ∧ jumpFrame [] s t

/-- R113, R114 (polarity D10, order D11): JSR and JSRR link in R7 and transfer; JSRR R7 reads the new R7, so it falls
through. -/
def Obligations.CallsLinkInR7AndTransfer : Prop :=
  (∀ (off : BitVec 11) (s : State), ∃ t, exec (.jsr off) s = .next t ∧ t.reg 7 = s.pc ∧
    t.pc = BitVec.ofInt 16 (s.pc.toNat + off.toInt) ∧ jumpFrame [7] s t) ∧
  (∀ (base : Reg) (ignHi : BitVec 2) (ignLo : BitVec 6) (s : State), ∃ t,
    exec (.jsrr base ignHi ignLo) s = .next t ∧ t.reg 7 = s.pc ∧ (base ≠ 7 → t.pc = s.reg base) ∧
    (base = 7 → t.pc = s.pc) ∧ jumpFrame [7] s t)

/-! ### Loads and stores -/

/-- R120, R122: LD and LDR read one word through the read path into DR, from the address computed before the write; flags
and frame. -/
def Obligations.LdAndLdrLoadOneWord : Prop :=
  (∀ (dr : Reg) (off : BitVec 9) (s : State), ∃ t, exec (.ld dr off) s = .next t ∧
    loadEffect dr (pcRelative s off) s s t ∧
    (pcRelative s off ≠ s.config.kbsrAddr →
      t.reg dr = s.mem.readWord (pcRelative s off) ∧ memSame s t ∧ deviceSame s t)) ∧
  (∀ (dr base : Reg) (off : BitVec 6) (s : State), ∃ t, exec (.ldr dr base off) s = .next t ∧
    loadEffect dr (baseOffset s base off) s s t ∧
    (baseOffset s base off ≠ s.config.kbsrAddr →
      t.reg dr = s.mem.readWord (baseOffset s base off) ∧ memSame s t ∧ deviceSame s t))

/-- R121: LDI reads the pointer, then the word it points to, both through the read path; flags and frame. -/
def Obligations.LdiLoadsThroughThePointer : Prop :=
  ∀ (dr : Reg) (off : BitVec 9) (s : State), ∃ t, exec (.ldi dr off) s = .next t ∧
    loadEffect dr (s.memRead (pcRelative s off)).1 s (s.memRead (pcRelative s off)).2 t ∧
    (pcRelative s off ≠ s.config.kbsrAddr → s.mem.readWord (pcRelative s off) ≠ s.config.kbsrAddr →
      t.reg dr = s.mem.readWord (s.mem.readWord (pcRelative s off)) ∧ memSame s t ∧ deviceSame s t)

/-- R123: LEA writes the address and its flags; it reads no memory, so it never polls. -/
def Obligations.LeaWritesTheAddress : Prop :=
  ∀ (dr : Reg) (off : BitVec 9) (s : State), ∃ t, exec (.lea dr off) s = .next t ∧
    t.reg dr = BitVec.ofInt 16 (s.pc.toNat + off.toInt) ∧ operateFrame dr s t

/-- R130, R132, R46: ST and STR store SR at the address and change nothing else, KBSR and KBDR among the addresses. -/
def Obligations.StAndStrStoreOneWord : Prop :=
  (∀ (sr : Reg) (off : BitVec 9) (s : State), ∃ t, exec (.st sr off) s = .next t ∧
    storeEffect (pcRelative s off) (s.reg sr) s s t) ∧
  (∀ (sr base : Reg) (off : BitVec 6) (s : State), ∃ t, exec (.str sr base off) s = .next t ∧
    storeEffect (baseOffset s base off) (s.reg sr) s s t)

/-- R131: STI reads the pointer through the read path and stores SR where it points, the pointer cell itself included. -/
def Obligations.StiStoresThroughThePointer : Prop :=
  ∀ (sr : Reg) (off : BitVec 9) (s : State), ∃ t, exec (.sti sr off) s = .next t ∧
    storeEffect (indirect s off).1 (s.reg sr) s (indirect s off).2 t ∧
    (pcRelative s off ≠ s.config.kbsrAddr → (indirect s off).1 = s.mem.readWord (pcRelative s off) ∧
      storeEffect (s.mem.readWord (pcRelative s off)) (s.reg sr) s s t)

/-! ### Memory and the keyboard -/

/-- The canonical form makes equal memories equal data: two memories in the form that read alike are the same. -/
def Obligations.CanonicalMemoriesThatReadAlikeAreEqual : Prop :=
  ∀ m m' : Memory, m.wf → m'.wf → (∀ a, m.readWord a = m'.readWord a) → m = m'

/-- 20_memory.md R42 (bit-wise set and clear D6, zero extension D7), at every configuration whose two addresses differ: the
read path at the status address with and without a character at this moment, and away from it. -/
def Obligations.ReadPathPollsTheKeyboard : Prop :=
  ∀ (s : State) (a : Word), s.mem.wf → s.config.kbsrAddr ≠ s.config.kbdrAddr →
    (a ≠ s.config.kbsrAddr → s.memRead a = (s.mem.readWord a, s)) ∧
    (∀ c rest, a = s.config.kbsrAddr → s.kbIn = some c :: rest →
      (s.memRead a).1 = s.mem.readWord a ||| 0x8000 ∧ (s.memRead a).2.mem.readWord a = s.mem.readWord a ||| 0x8000 ∧
      ((s.memRead a).2.mem.readWord s.config.kbdrAddr).toNat = c.toNat ∧
      memSameBut [s.config.kbsrAddr, s.config.kbdrAddr] s (s.memRead a).2 ∧ (s.memRead a).2.kbIn = rest ∧
      (s.memRead a).2.trace = s.trace ++ [.kbAvail true, .kbRead c]) ∧
    (a = s.config.kbsrAddr → (∀ c rest, s.kbIn ≠ some c :: rest) →
      (s.memRead a).1 = s.mem.readWord a &&& 0x7FFF ∧ (s.memRead a).2.mem.readWord a = s.mem.readWord a &&& 0x7FFF ∧
      memSameBut [s.config.kbsrAddr] s (s.memRead a).2 ∧ (s.memRead a).2.kbIn = s.kbIn.tail ∧
      (s.memRead a).2.trace = s.trace ++ [.kbAvail false])

/-- 20_memory.md R45: a read of KBDR consumes nothing and leaves KBSR; two status reads with two characters available latch
the second and lose the first; a status read with none leaves KBDR. -/
def Obligations.StatusReadsConsumeOneCharacterEach : Prop :=
  ∀ s : State, s.mem.wf → s.config.kbsrAddr ≠ s.config.kbdrAddr →
    (s.memRead s.config.kbdrAddr).2 = s ∧
    (∀ c d rest, s.kbIn = some c :: some d :: rest →
      (((s.memRead s.config.kbsrAddr).2.memRead s.config.kbsrAddr).2.mem.readWord s.config.kbdrAddr) = zext8 d ∧
      ((s.memRead s.config.kbsrAddr).2.memRead s.config.kbsrAddr).2.kbIn = rest) ∧
    ((∀ c rest, s.kbIn ≠ some c :: rest) →
      (s.memRead s.config.kbsrAddr).2.mem.readWord s.config.kbdrAddr = s.mem.readWord s.config.kbdrAddr)

/-- R46: MemWrite writes one cell with no side effect, at every address, KBSR and KBDR among them; after a store to KBSR the
next status read overwrites bit 15, and after a store to KBDR it overwrites KBDR if a character is available. -/
def Obligations.MemWriteIsAPlainStoreEverywhere : Prop :=
  ∀ (s : State) (a v : Word), s.mem.wf →
    (s.memWrite a v).mem.readWord a = v ∧ memSameBut [a] s (s.memWrite a v) ∧
    { s.memWrite a v with mem := s.mem } = s ∧
    (s.config.kbsrAddr ≠ s.config.kbdrAddr →
      (((s.memWrite s.config.kbsrAddr v).memRead s.config.kbsrAddr).1.getLsbD 15 = true ↔
        ∃ c rest, s.kbIn = some c :: rest) ∧
      (∀ c rest, s.kbIn = some c :: rest →
        lowByte (((s.memWrite s.config.kbdrAddr v).memRead s.config.kbsrAddr).2.mem.readWord s.config.kbdrAddr) = c) ∧
      ((∀ c rest, s.kbIn ≠ some c :: rest) →
        ((s.memWrite s.config.kbdrAddr v).memRead s.config.kbsrAddr).2.mem.readWord s.config.kbdrAddr = v))

/-- 20_memory.md R56, 70_reset_and_hazards.md R187 (the spec's inference, D26): every store instruction that stores at the
address of the next instruction is seen by the next fetch. Away from the status address the next step runs the stored word;
at it the fetch polls, so the stored word is fetched in all bits but bit 15 (D6). -/
def Obligations.FetchSeesTheStoreBefore : Prop :=
  ∀ (s : State) (i : Instr) (sr : Reg), s.ready → s.mem.wf → storeSource i = some sr → storeAddr s i = some s.pc →
    ∃ t, exec i s = .next t ∧ t.ready ∧ t.pc = s.pc ∧
      (s.pc ≠ s.config.kbsrAddr → fetched t = s.reg sr ∧
        ∀ j, decode (s.reg sr) = .ok j → step t = exec j { t with pc := t.pc + 1 }) ∧
      (s.pc = s.config.kbsrAddr → s.config.kbsrAddr ≠ s.config.kbdrAddr →
        ∀ k < 15, (fetched t).getLsbD k = (s.reg sr).getLsbD k)

/-! ### TRAP, its services and the fatal errors -/

/-- 45_trap.md R140, R144 (vector numbers D4): the TRAP row on any vector writes R7, then runs that vector's service, and
on a vector with none raises the fatal error with the fetched word. -/
def Obligations.TrapDispatchesOnTheVector : Prop :=
  ∀ (ign : BitVec 4) (vec : BitVec 8) (s : State),
    (vec = 0x20 → exec (.trap ign vec) s = exec (.getc ign) s) ∧ (vec = 0x21 → exec (.trap ign vec) s = exec (.out ign) s) ∧
    (vec = 0x22 → exec (.trap ign vec) s = exec (.puts ign) s) ∧ (vec = 0x25 → exec (.trap ign vec) s = exec (.halt ign) s) ∧
    (vec ≠ 0x20 → vec ≠ 0x21 → vec ≠ 0x22 → vec ≠ 0x25 → ∃ t, exec (.trap ign vec) s = .next t ∧
      t.runState = .faulted .unknownTrapVector (encode (.trap ign vec)) (s.pc - 1) ∧ t.reg 7 = s.pc ∧
      regsSameBut [7] s t ∧ t.pc = s.pc ∧ t.cond = s.cond ∧ memSame s t ∧ deviceSame s t ∧ t.hold = s.hold ∧
      t.config = s.config)

/-- R148, R149 (kind: D14): IN and PUTSP are the fatal error UnknownTrapVector after the R7 write, with no device call. -/
def Obligations.InAndPutspAreFatal : Prop :=
  ∀ (i : Instr) (ign : BitVec 4) (s : State), i = .inChar ign ∨ i = .putsp ign →
    ∃ t, exec i s = .next t ∧ t.runState = .faulted .unknownTrapVector (encode i) (s.pc - 1) ∧ t.reg 7 = s.pc ∧
      regsSameBut [7] s t ∧ t.pc = s.pc ∧ t.cond = s.cond ∧ memSame s t ∧ deviceSame s t ∧ t.hold = s.hold ∧
      t.config = s.config

/-- R152, R153 (RES: D20): RTI and RES are the fatal error UnimplementedOpcode and write nothing else. -/
def Obligations.RtiAndResAreFatal : Prop :=
  ∀ (i : Instr) (ign : BitVec 12) (s : State), i = .rti ign ∨ i = .res ign →
    ∃ t, exec i s = .next t ∧ t.runState = .faulted .unimplementedOpcode (encode i) (s.pc - 1) ∧ regsSameBut [] s t ∧
      t.pc = s.pc ∧ t.cond = s.cond ∧ memSame s t ∧ deviceSame s t ∧ t.hold = s.hold ∧ t.config = s.config

/-- R145 (zero extension D7, flags D13): GETC with a character to come consumes it into R0, with no echo. Moments with no
character before it only pass (log 3, log 5). -/
def Obligations.GetcReadsTheNextCharacter : Prop :=
  ∀ (ign : BitVec 4) (s : State) (c : Byte) (rest : List (Option Byte)), nextChar s.kbIn = some (c, rest) →
    ∃ t, exec (.getc ign) s = .next t ∧ (t.reg 0).toNat = c.toNat ∧ t.reg 7 = s.pc ∧ regsSameBut [0, 7] s t ∧
      t.pc = s.pc ∧ t.cond = s.cond ∧ memSame s t ∧ t.kbIn = rest ∧ t.trace = s.trace ++ [.kbRead c] ∧
      t.runState = s.runState ∧ t.hold = .idle ∧ t.config = s.config

/-- R145, 40_cycle.md R90 (the form of the hold is log 5): with no character to come GETC holds after the R7 write with
nothing else changed, stays so, and completes as soon as a character is supplied: one `KbRead`, no `OutWrite`. -/
def Obligations.GetcHoldsUntilACharacterComes : Prop :=
  ∀ (ign : BitVec 4) (s : State), s.runState = .running → (∀ m ∈ s.kbIn, m = none) →
    ∃ t, exec (.getc ign) s = .next t ∧ t.hold = .getc ∧ t.reg 7 = s.pc ∧ regsSameBut [7] s t ∧ t.pc = s.pc ∧
      t.cond = s.cond ∧ memSame s t ∧ deviceSame s t ∧ t.runState = .running ∧ t.config = s.config ∧ step t = .next t ∧
      (∀ (c : Byte) (later : List (Option Byte)), ∃ u, step (t.provide (some c :: later)) = .next u ∧ u.hold = .idle ∧
        u.reg 0 = zext8 c ∧ u.kbIn = later ∧ u.trace = t.trace ++ [.kbRead c] ∧ regsSameBut [0] t u ∧ u.pc = t.pc ∧
        u.cond = t.cond ∧ memSame t u ∧ u.runState = .running ∧ u.config = t.config)

/-- R146: OUT writes bits 7:0 of R0 to the sink and flushes. -/
def Obligations.OutWritesTheLowByteOfR0 : Prop :=
  ∀ (ign : BitVec 4) (s : State), ∃ t, exec (.out ign) s = .next t ∧
    t.trace = s.trace ++ [.outWrite (BitVec.ofNat 8 (s.reg 0).toNat), .outFlush] ∧ t.kbIn = s.kbIn ∧ t.reg 7 = s.pc ∧
    regsSameBut [7] s t ∧ t.pc = s.pc ∧ t.cond = s.cond ∧ memSame s t ∧ engineSame s t

/-- R147 (wrap and single flush D17): PUTS on a string of non-zero words ended by a zero word, anywhere in memory
with wrap-around and off the status address, completes in one step; it writes exactly the low bytes, then one flush, and
changes nothing else but R7. (A string of 65,536 words or more leaves no place for its terminator.) -/
def Obligations.PutsWritesTheStringThenFlushes : Prop :=
  ∀ (ign : BitVec 4) (s : State) (str : List Word), str.length < 65536 → s.hold = .idle →
    (∀ k, ∀ w, str[k]? = some w → s.mem.readWord (s.reg 0 + BitVec.ofNat 16 k) = w ∧ w ≠ 0) →
    s.mem.readWord (s.reg 0 + BitVec.ofNat 16 str.length) = 0 →
    (∀ k ≤ str.length, s.reg 0 + BitVec.ofNat 16 k ≠ s.config.kbsrAddr) →
    ∃ t, exec (.puts ign) s = .next t ∧
      t.trace = s.trace ++ (str.map fun w => DevEvent.outWrite (BitVec.ofNat 8 w.toNat)) ++ [.outFlush] ∧
      t.kbIn = s.kbIn ∧ t.reg 7 = s.pc ∧ regsSameBut [7] s t ∧ t.pc = s.pc ∧ t.cond = s.cond ∧ memSame s t ∧ engineSame s t

/-- R147, R43: the PUTS step on any state, and the step that goes on with its scan (log 6), write no register but R7 (the
latter none), not pc, not cond, no word but KBSR and KBDR; device calls come in order; the step ends with no step in progress
or with the scan in progress. -/
def Obligations.PutsTouchesOnlyTheDevice : Prop :=
  (∀ (ign : BitVec 4) (s : State), ∃ t, exec (.puts ign) s = .next t ∧ t.reg 7 = s.pc ∧ regsSameBut [7] s t ∧
    t.pc = s.pc ∧ t.cond = s.cond ∧ memSameBut [s.config.kbsrAddr, s.config.kbdrAddr] s t ∧ s.trace <+: t.trace ∧
    t.kbIn <:+ s.kbIn ∧ t.runState = s.runState ∧ t.config = s.config ∧ (t.hold = .idle ∨ ∃ a, t.hold = .puts a)) ∧
  (∀ (s : State) (a : Word), s.runState = .running → s.hold = .puts a → ∃ t, step s = .next t ∧ regsSameBut [] s t ∧
    t.pc = s.pc ∧ t.cond = s.cond ∧ memSameBut [s.config.kbsrAddr, s.config.kbdrAddr] s t ∧ s.trace <+: t.trace ∧
    t.kbIn <:+ s.kbIn ∧ t.runState = .running ∧ t.config = s.config ∧ (t.hold = .idle ∨ ∃ b, t.hold = .puts b))

/-- R147, R43, on every string, one that crosses the status address among them: PUTS runs the loop of R147 from the address
in R0, after the R7 write, and a step of a state with that scan in progress at `a` runs it from `a`. The step ends the loop
wherever the loop has an end; else it leaves it in progress (the form of that is log 6). -/
def Obligations.PutsRunsTheLoopOfR147 : Prop :=
  (∀ (ign : BitVec 4) (s : State), ∃ t, exec (.puts ign) s = .next t ∧
    (putsEnds (s.reg 0) (s.setReg 7 s.pc) t ∨ putsGoesOn (s.reg 0) (s.setReg 7 s.pc) t) ∧
    (s.mem.wf → ∀ t', putsEnds (s.reg 0) (s.setReg 7 s.pc) t' → t = t')) ∧
  (∀ (s : State) (a : Word), s.runState = .running → s.hold = .puts a → ∃ t, step s = .next t ∧
    (putsEnds a s t ∨ putsGoesOn a s t) ∧ (s.mem.wf → ∀ t', putsEnds a s t' → t = t'))

/-- The model's cut of an endless PUTS (DESIGN CHOICE, log 6) is exact: where the service, on a canonical memory,
leaves the scan in progress, no number of further words ends it, so only new input can. R147: "If no zero word is ever read, the step never
ends". -/
def Obligations.AnUnfinishedPutsNeverFinishesByItself : Prop :=
  ∀ (a : Word) (s : State), s.mem.wf → (putsService a s).hold ≠ .idle → ∀ n, (putsScan n a s).hold ≠ .idle

/-- 60_exceptions.md R160, R162 (record: D15), over a whole step: a step ends FAULTED exactly when the fetched word is RTI or
RES (UnimplementedOpcode) or a TRAP with no implemented vector (UnknownTrapVector); the record is that word and its
address; pc is advanced, and R7 with it for TRAP. -/
def Obligations.FatalErrorsAreExactlyTheListedWords : Prop :=
  ∀ s t : State, s.ready → step s = .next t →
    (∀ kind, t.runState = .faulted kind (fetched s) s.pc ↔ faultWord kind (fetched s)) ∧
    (∀ kind w a, t.runState = .faulted kind w a → w = fetched s ∧ a = s.pc ∧ t.pc = s.pc + 1 ∧ t.cond = s.cond ∧
      (kind = .unimplementedOpcode → regsSameBut [] s t) ∧
      (kind = .unknownTrapVector → t.reg 7 = s.pc + 1 ∧ regsSameBut [7] s t))

/-- 60_exceptions.md R163, 40_cycle.md R90: a ready step ends HALTED exactly on the all-zero word and on TRAP x25. -/
def Obligations.GracefulHaltsAreExactlyTheListedWords : Prop :=
  ∀ s t : State, s.ready → step s = .next t →
    (t.runState = .halted ↔ fetched s = 0 ∨ isTrap (fetched s) 0x25) ∧
    (isTrap (fetched s) 0x25 → t.reg 7 = s.pc + 1)

/-- 60_exceptions.md R161 (codes: D15): the status outputs are all zero until a fatal error, then its code, word and
address; no later step changes them. -/
def Obligations.StatusOutputsReportTheFatalError : Prop :=
  (∀ s : State, ¬ s.endedFatal → s.faultKindOut = 0 ∧ s.faultInstrOut = 0 ∧ s.faultAddrOut = 0) ∧
  (∀ (s : State) (kind : FaultKind) (w : Word), (s.raiseFatal kind w).endedFatal ∧
    (s.raiseFatal kind w).faultKindOut = (match kind with | .unimplementedOpcode => 1 | .unknownTrapVector => 2) ∧
    (s.raiseFatal kind w).faultInstrOut = w ∧ (s.raiseFatal kind w).faultAddrOut = s.pc - 1 ∧
    regsSameBut [] s (s.raiseFatal kind w) ∧ (s.raiseFatal kind w).pc = s.pc) ∧
  (∀ s t : State, s.endedFatal → Steps s t → t.faultKindOut = s.faultKindOut ∧ t.faultInstrOut = s.faultInstrOut ∧
    t.faultAddrOut = s.faultAddrOut)

/-- 60_exceptions.md R160, R162, R98 of 40_cycle.md: a run is safe (it never ends in a fatal error) exactly when it has not
already and never comes to fetch one of the words that R162 lists. -/
def Obligations.RunIsSafeExactlyWhenNoFatalWordIsFetched : Prop :=
  ∀ s : State, RunSafe s ↔
    ¬ s.endedFatal ∧ ∀ t, Steps s t → t.ready → ∀ kind, ¬ faultWord kind (fetched t)

/-! ### Reset, boot and the invariant -/

/-- 70_reset_and_hazards.md R180 (cond D9, fault fields D15; the device's stream and trace are empty by log 11): the reset
state. -/
def Obligations.ResetStateIsTheTableOfR180 : Prop :=
  (∀ r, State.reset.reg r = 0x0000) ∧ State.reset.pc = 0x3000 ∧ State.reset.cond = 0x0000 ∧
  (∀ a, State.reset.mem.readWord a = 0x0000) ∧ State.reset.runState = .running ∧ State.reset.faultKindOut = 0 ∧
  State.reset.faultInstrOut = 0 ∧ State.reset.faultAddrOut = 0 ∧ State.reset.config.kbsrAddr = 0xFE00 ∧
  State.reset.config.kbdrAddr = 0xFE02

/-- The reset state meets the invariant, and is RUNNING with no step in progress, so with no fault record. -/
def Obligations.ResetMeetsTheInvariant : Prop := State.reset.Inv ∧ State.reset.ready

/-- Tier 3. Every step of every state that meets the invariant keeps it: memory stays canonical, cond stays one of its four
values (10_state.md R26), only a RUNNING machine has a step in progress, and a fault record is true of its state. -/
def Obligations.EveryStepKeepsTheInvariant : Prop :=
  ∀ s t : State, s.Inv → step s = .next t → t.Inv

/-- 20_memory.md R51, R52 (bounds: D19): an image inside memory is copied from its origin, word by word, and nothing else
changes, pc and the registers among it; an empty array and one past 0xFFFF are refused. -/
def Obligations.InitMemoryCopiesTheImageOrRefuses : Prop :=
  (∀ (s : State) (origin : Word) (words : List Word), s.mem.wf → origin.toNat + words.length ≤ 65536 →
    ∃ t, initMemory (origin :: words) s = .next t ∧
      (∀ (k : Nat) (w : Word), words[k]? = some w → t.mem.readWord (origin + BitVec.ofNat 16 k) = w) ∧
      (∀ a : Word, a.toNat < origin.toNat ∨ origin.toNat + words.length ≤ a.toNat →
        t.mem.readWord a = s.mem.readWord a) ∧
      t.mem.wf ∧ { t with mem := s.mem } = s) ∧
  (∀ s : State, initMemory [] s = .refused .imageWithoutOrigin) ∧
  (∀ (s : State) (origin : Word) (words : List Word), 65536 < origin.toNat + words.length →
    initMemory (origin :: words) s = .refused .imagePastEnd)

/-- 20_memory.md R50: word k of an image is the bytes 2k and 2k + 1, high byte first, a missing last byte zero. -/
def Obligations.ImageWordsAreBigEndianPairs : Prop :=
  ∀ bytes : List Byte, (imageWords bytes).length = (bytes.length + 1) / 2 ∧
    ∀ k, 2 * k < bytes.length →
      (imageWords bytes)[k]? = some ((bytes[2 * k]?).getD 0 ++ (bytes[2 * k + 1]?).getD 0)

/-- 70_reset_and_hazards.md R181, R182, R185: a booted machine is ready at 0x3000 with zero registers, and one whose image
leaves 0x3000 uncovered halts in its first step with pc = 0x3001 and no register written. That the trace is empty is the
model's choice, not the spec's (log 11, log 12). -/
def Obligations.BootStartsAtTheFixedEntryPoint : Prop :=
  ∀ (config : Config) (input : List (Option Byte)) (image : List Word) (s : State), boot config input image = .next s →
    s.ready ∧ s.pc = 0x3000 ∧ (∀ r, s.reg r = 0) ∧ s.cond = condNone ∧ s.mem.wf ∧ s.config = config ∧ s.kbIn = input ∧
    s.trace = [] ∧
    (config.kbsrAddr ≠ 0x3000 →
      (∀ origin words, image = origin :: words → (0x3000 : Nat) < origin.toNat ∨ origin.toNat + words.length ≤ 0x3000) →
      step s = .next { s with pc := 0x3001, runState := .halted })

/-- 70_reset_and_hazards.md R183 (D30): reset from any state, HALTED, FAULTED and a held GETC among them, is the boot of a
new run; nothing of registers, memory, run_state or the step in progress is left. -/
def Obligations.ResetAbandonsWhateverWasInProgress : Prop :=
  ∀ (s s' t : State) (image : List Word), s.config = s'.config → s.kbIn = s'.kbIn → resetAgain image s = .next t →
    resetAgain image s' = .next t ∧ t.ready ∧ t.pc = 0x3000 ∧ t.faultKindOut = 0 ∧ (∀ r, t.reg r = 0)
end

