-- ==== Sys2Proof/Laws/State.lean ====
section
/-! SUPPORT. One lemma per field per update of State, each true by rfl, and the register laws. -/

namespace Sys2Proof.Machine

variable (s : State)

/-! ### setReg -/

@[simp] theorem State.setReg_regs (r : Reg) (v : Word) : (s.setReg r v).regs = s.regs.set r v := rfl
@[simp] theorem State.setReg_pc (r : Reg) (v : Word) : (s.setReg r v).pc = s.pc := rfl
@[simp] theorem State.setReg_cond (r : Reg) (v : Word) : (s.setReg r v).cond = s.cond := rfl
@[simp] theorem State.setReg_mem (r : Reg) (v : Word) : (s.setReg r v).mem = s.mem := rfl
@[simp] theorem State.setReg_runState (r : Reg) (v : Word) : (s.setReg r v).runState = s.runState := rfl
@[simp] theorem State.setReg_hold (r : Reg) (v : Word) : (s.setReg r v).hold = s.hold := rfl
@[simp] theorem State.setReg_config (r : Reg) (v : Word) : (s.setReg r v).config = s.config := rfl
@[simp] theorem State.setReg_kbIn (r : Reg) (v : Word) : (s.setReg r v).kbIn = s.kbIn := rfl
@[simp] theorem State.setReg_trace (r : Reg) (v : Word) : (s.setReg r v).trace = s.trace := rfl

/-! ### setPc -/

@[simp] theorem State.setPc_regs (v : Word) : (s.setPc v).regs = s.regs := rfl
@[simp] theorem State.setPc_pc (v : Word) : (s.setPc v).pc = v := rfl
@[simp] theorem State.setPc_cond (v : Word) : (s.setPc v).cond = s.cond := rfl
@[simp] theorem State.setPc_mem (v : Word) : (s.setPc v).mem = s.mem := rfl
@[simp] theorem State.setPc_runState (v : Word) : (s.setPc v).runState = s.runState := rfl
@[simp] theorem State.setPc_hold (v : Word) : (s.setPc v).hold = s.hold := rfl
@[simp] theorem State.setPc_config (v : Word) : (s.setPc v).config = s.config := rfl
@[simp] theorem State.setPc_kbIn (v : Word) : (s.setPc v).kbIn = s.kbIn := rfl
@[simp] theorem State.setPc_trace (v : Word) : (s.setPc v).trace = s.trace := rfl

/-! ### record -/

@[simp] theorem State.record_regs (e : DevEvent) : (s.record e).regs = s.regs := rfl
@[simp] theorem State.record_pc (e : DevEvent) : (s.record e).pc = s.pc := rfl
@[simp] theorem State.record_cond (e : DevEvent) : (s.record e).cond = s.cond := rfl
@[simp] theorem State.record_mem (e : DevEvent) : (s.record e).mem = s.mem := rfl
@[simp] theorem State.record_runState (e : DevEvent) : (s.record e).runState = s.runState := rfl
@[simp] theorem State.record_hold (e : DevEvent) : (s.record e).hold = s.hold := rfl
@[simp] theorem State.record_config (e : DevEvent) : (s.record e).config = s.config := rfl
@[simp] theorem State.record_kbIn (e : DevEvent) : (s.record e).kbIn = s.kbIn := rfl
@[simp] theorem State.record_trace (e : DevEvent) : (s.record e).trace = s.trace ++ [e] := rfl

/-! ### outWrite -/

@[simp] theorem State.outWrite_regs (b : Byte) : (s.outWrite b).regs = s.regs := rfl
@[simp] theorem State.outWrite_pc (b : Byte) : (s.outWrite b).pc = s.pc := rfl
@[simp] theorem State.outWrite_cond (b : Byte) : (s.outWrite b).cond = s.cond := rfl
@[simp] theorem State.outWrite_mem (b : Byte) : (s.outWrite b).mem = s.mem := rfl
@[simp] theorem State.outWrite_runState (b : Byte) : (s.outWrite b).runState = s.runState := rfl
@[simp] theorem State.outWrite_hold (b : Byte) : (s.outWrite b).hold = s.hold := rfl
@[simp] theorem State.outWrite_config (b : Byte) : (s.outWrite b).config = s.config := rfl
@[simp] theorem State.outWrite_kbIn (b : Byte) : (s.outWrite b).kbIn = s.kbIn := rfl
@[simp] theorem State.outWrite_trace (b : Byte) : (s.outWrite b).trace = s.trace ++ [.outWrite b] := rfl

/-! ### outFlush -/

@[simp] theorem State.outFlush_regs : s.outFlush.regs = s.regs := rfl
@[simp] theorem State.outFlush_pc : s.outFlush.pc = s.pc := rfl
@[simp] theorem State.outFlush_cond : s.outFlush.cond = s.cond := rfl
@[simp] theorem State.outFlush_mem : s.outFlush.mem = s.mem := rfl
@[simp] theorem State.outFlush_runState : s.outFlush.runState = s.runState := rfl
@[simp] theorem State.outFlush_hold : s.outFlush.hold = s.hold := rfl
@[simp] theorem State.outFlush_config : s.outFlush.config = s.config := rfl
@[simp] theorem State.outFlush_kbIn : s.outFlush.kbIn = s.kbIn := rfl
@[simp] theorem State.outFlush_trace : s.outFlush.trace = s.trace ++ [.outFlush] := rfl

/-! ### memWrite -/

@[simp] theorem State.memWrite_regs (a v : Word) : (s.memWrite a v).regs = s.regs := rfl
@[simp] theorem State.memWrite_pc (a v : Word) : (s.memWrite a v).pc = s.pc := rfl
@[simp] theorem State.memWrite_cond (a v : Word) : (s.memWrite a v).cond = s.cond := rfl
@[simp] theorem State.memWrite_mem (a v : Word) : (s.memWrite a v).mem = s.mem.writeWord a v := rfl
@[simp] theorem State.memWrite_runState (a v : Word) : (s.memWrite a v).runState = s.runState := rfl
@[simp] theorem State.memWrite_hold (a v : Word) : (s.memWrite a v).hold = s.hold := rfl
@[simp] theorem State.memWrite_config (a v : Word) : (s.memWrite a v).config = s.config := rfl
@[simp] theorem State.memWrite_kbIn (a v : Word) : (s.memWrite a v).kbIn = s.kbIn := rfl
@[simp] theorem State.memWrite_trace (a v : Word) : (s.memWrite a v).trace = s.trace := rfl

/-! ### updateFlags -/

@[simp] theorem State.updateFlags_regs (r : Word) : (s.updateFlags r).regs = s.regs := rfl
@[simp] theorem State.updateFlags_pc (r : Word) : (s.updateFlags r).pc = s.pc := rfl
@[simp] theorem State.updateFlags_cond (r : Word) : (s.updateFlags r).cond = flagOf r := rfl
@[simp] theorem State.updateFlags_mem (r : Word) : (s.updateFlags r).mem = s.mem := rfl
@[simp] theorem State.updateFlags_runState (r : Word) : (s.updateFlags r).runState = s.runState := rfl
@[simp] theorem State.updateFlags_hold (r : Word) : (s.updateFlags r).hold = s.hold := rfl
@[simp] theorem State.updateFlags_config (r : Word) : (s.updateFlags r).config = s.config := rfl
@[simp] theorem State.updateFlags_kbIn (r : Word) : (s.updateFlags r).kbIn = s.kbIn := rfl
@[simp] theorem State.updateFlags_trace (r : Word) : (s.updateFlags r).trace = s.trace := rfl

/-! ### writeResult -/

@[simp] theorem State.writeResult_regs (dr : Reg) (r : Word) : (s.writeResult dr r).regs = s.regs.set dr r := rfl
@[simp] theorem State.writeResult_pc (dr : Reg) (r : Word) : (s.writeResult dr r).pc = s.pc := rfl
@[simp] theorem State.writeResult_cond (dr : Reg) (r : Word) : (s.writeResult dr r).cond = flagOf r := rfl
@[simp] theorem State.writeResult_mem (dr : Reg) (r : Word) : (s.writeResult dr r).mem = s.mem := rfl
@[simp] theorem State.writeResult_runState (dr : Reg) (r : Word) : (s.writeResult dr r).runState = s.runState := rfl
@[simp] theorem State.writeResult_hold (dr : Reg) (r : Word) : (s.writeResult dr r).hold = s.hold := rfl
@[simp] theorem State.writeResult_config (dr : Reg) (r : Word) : (s.writeResult dr r).config = s.config := rfl
@[simp] theorem State.writeResult_kbIn (dr : Reg) (r : Word) : (s.writeResult dr r).kbIn = s.kbIn := rfl
@[simp] theorem State.writeResult_trace (dr : Reg) (r : Word) : (s.writeResult dr r).trace = s.trace := rfl

/-! ### setHold -/

@[simp] theorem State.setHold_regs (h : Hold) : (s.setHold h).regs = s.regs := rfl
@[simp] theorem State.setHold_pc (h : Hold) : (s.setHold h).pc = s.pc := rfl
@[simp] theorem State.setHold_cond (h : Hold) : (s.setHold h).cond = s.cond := rfl
@[simp] theorem State.setHold_mem (h : Hold) : (s.setHold h).mem = s.mem := rfl
@[simp] theorem State.setHold_runState (h : Hold) : (s.setHold h).runState = s.runState := rfl
@[simp] theorem State.setHold_hold (h : Hold) : (s.setHold h).hold = h := rfl
@[simp] theorem State.setHold_config (h : Hold) : (s.setHold h).config = s.config := rfl
@[simp] theorem State.setHold_kbIn (h : Hold) : (s.setHold h).kbIn = s.kbIn := rfl
@[simp] theorem State.setHold_trace (h : Hold) : (s.setHold h).trace = s.trace := rfl

/-! ### halt -/

@[simp] theorem State.halt_regs : s.halt.regs = s.regs := rfl
@[simp] theorem State.halt_pc : s.halt.pc = s.pc := rfl
@[simp] theorem State.halt_cond : s.halt.cond = s.cond := rfl
@[simp] theorem State.halt_mem : s.halt.mem = s.mem := rfl
@[simp] theorem State.halt_runState : s.halt.runState = .halted := rfl
@[simp] theorem State.halt_hold : s.halt.hold = s.hold := rfl
@[simp] theorem State.halt_config : s.halt.config = s.config := rfl
@[simp] theorem State.halt_kbIn : s.halt.kbIn = s.kbIn := rfl
@[simp] theorem State.halt_trace : s.halt.trace = s.trace := rfl

/-! ### raiseFatal -/

@[simp] theorem State.raiseFatal_regs (k : FaultKind) (w : Word) : (s.raiseFatal k w).regs = s.regs := rfl
@[simp] theorem State.raiseFatal_pc (k : FaultKind) (w : Word) : (s.raiseFatal k w).pc = s.pc := rfl
@[simp] theorem State.raiseFatal_cond (k : FaultKind) (w : Word) : (s.raiseFatal k w).cond = s.cond := rfl
@[simp] theorem State.raiseFatal_mem (k : FaultKind) (w : Word) : (s.raiseFatal k w).mem = s.mem := rfl
@[simp] theorem State.raiseFatal_runState (k : FaultKind) (w : Word) : (s.raiseFatal k w).runState = .faulted k w (s.pc - 1) := rfl
@[simp] theorem State.raiseFatal_hold (k : FaultKind) (w : Word) : (s.raiseFatal k w).hold = s.hold := rfl
@[simp] theorem State.raiseFatal_config (k : FaultKind) (w : Word) : (s.raiseFatal k w).config = s.config := rfl
@[simp] theorem State.raiseFatal_kbIn (k : FaultKind) (w : Word) : (s.raiseFatal k w).kbIn = s.kbIn := rfl
@[simp] theorem State.raiseFatal_trace (k : FaultKind) (w : Word) : (s.raiseFatal k w).trace = s.trace := rfl

/-! ### trapEntry -/

@[simp] theorem State.trapEntry_regs : s.trapEntry.regs = s.regs.set 7 s.pc := rfl
@[simp] theorem State.trapEntry_pc : s.trapEntry.pc = s.pc := rfl
@[simp] theorem State.trapEntry_cond : s.trapEntry.cond = s.cond := rfl
@[simp] theorem State.trapEntry_mem : s.trapEntry.mem = s.mem := rfl
@[simp] theorem State.trapEntry_runState : s.trapEntry.runState = s.runState := rfl
@[simp] theorem State.trapEntry_hold : s.trapEntry.hold = s.hold := rfl
@[simp] theorem State.trapEntry_config : s.trapEntry.config = s.config := rfl
@[simp] theorem State.trapEntry_kbIn : s.trapEntry.kbIn = s.kbIn := rfl
@[simp] theorem State.trapEntry_trace : s.trapEntry.trace = s.trace := rfl

/-! ### provide -/

@[simp] theorem State.provide_regs (ms : List (Option Byte)) : (s.provide ms).regs = s.regs := rfl
@[simp] theorem State.provide_pc (ms : List (Option Byte)) : (s.provide ms).pc = s.pc := rfl
@[simp] theorem State.provide_cond (ms : List (Option Byte)) : (s.provide ms).cond = s.cond := rfl
@[simp] theorem State.provide_mem (ms : List (Option Byte)) : (s.provide ms).mem = s.mem := rfl
@[simp] theorem State.provide_runState (ms : List (Option Byte)) : (s.provide ms).runState = s.runState := rfl
@[simp] theorem State.provide_hold (ms : List (Option Byte)) : (s.provide ms).hold = s.hold := rfl
@[simp] theorem State.provide_config (ms : List (Option Byte)) : (s.provide ms).config = s.config := rfl
@[simp] theorem State.provide_kbIn (ms : List (Option Byte)) : (s.provide ms).kbIn = s.kbIn ++ ms := rfl
@[simp] theorem State.provide_trace (ms : List (Option Byte)) : (s.provide ms).trace = s.trace := rfl

/-! ### latch -/

@[simp] theorem State.latch_regs (c : Byte) : (s.latch c).regs = s.regs := rfl
@[simp] theorem State.latch_pc (c : Byte) : (s.latch c).pc = s.pc := rfl
@[simp] theorem State.latch_cond (c : Byte) : (s.latch c).cond = s.cond := rfl
@[simp] theorem State.latch_mem (c : Byte) : (s.latch c).mem = (s.mem.writeWord s.config.kbsrAddr
      (s.mem.readWord s.config.kbsrAddr ||| 0x8000)).writeWord s.config.kbdrAddr (zext8 c) := rfl
@[simp] theorem State.latch_runState (c : Byte) : (s.latch c).runState = s.runState := rfl
@[simp] theorem State.latch_hold (c : Byte) : (s.latch c).hold = s.hold := rfl
@[simp] theorem State.latch_config (c : Byte) : (s.latch c).config = s.config := rfl
@[simp] theorem State.latch_kbIn (c : Byte) : (s.latch c).kbIn = s.kbIn := rfl
@[simp] theorem State.latch_trace (c : Byte) : (s.latch c).trace = s.trace := rfl

/-! ### clearStatus -/

@[simp] theorem State.clearStatus_regs : s.clearStatus.regs = s.regs := rfl
@[simp] theorem State.clearStatus_pc : s.clearStatus.pc = s.pc := rfl
@[simp] theorem State.clearStatus_cond : s.clearStatus.cond = s.cond := rfl
@[simp] theorem State.clearStatus_mem : s.clearStatus.mem = s.mem.writeWord s.config.kbsrAddr (s.mem.readWord s.config.kbsrAddr &&& 0x7FFF) := rfl
@[simp] theorem State.clearStatus_runState : s.clearStatus.runState = s.runState := rfl
@[simp] theorem State.clearStatus_hold : s.clearStatus.hold = s.hold := rfl
@[simp] theorem State.clearStatus_config : s.clearStatus.config = s.config := rfl
@[simp] theorem State.clearStatus_kbIn : s.clearStatus.kbIn = s.kbIn := rfl
@[simp] theorem State.clearStatus_trace : s.clearStatus.trace = s.trace := rfl

/-! ### linkReturn -/

@[simp] theorem linkReturn_eq : linkReturn s = s.setReg 7 s.pc := rfl

/-! ### Registers -/

/-- A register reads what was last written to it, whatever is written elsewhere (10_state.md R20: none is hardwired). -/
theorem State.reg_setReg (r r' : Reg) (v : Word) : (s.setReg r v).reg r' = if r = r' then v else s.reg r' := by
  simp only [State.reg, State.setReg, Fin.getElem_fin, Vector.getElem_set, Fin.val_inj]

@[simp] theorem State.reg_setReg_same (r : Reg) (v : Word) : (s.setReg r v).reg r = v := by
  simp [State.reg_setReg]

theorem State.reg_setReg_ne {r r' : Reg} (v : Word) (h : r' ≠ r) : (s.setReg r v).reg r' = s.reg r' := by
  simp [State.reg_setReg, h.symm]

/-- Reading a register depends on the register file alone. -/
theorem State.reg_congr {s t : State} (h : t.regs = s.regs) (r : Reg) : t.reg r = s.reg r := by
  simp only [State.reg, h]

@[simp] theorem State.setPc_reg (v : Word) (r : Reg) : (s.setPc v).reg r = s.reg r := rfl
@[simp] theorem State.record_reg (e : DevEvent) (r : Reg) : (s.record e).reg r = s.reg r := rfl
@[simp] theorem State.outWrite_reg (b : Byte) (r : Reg) : (s.outWrite b).reg r = s.reg r := rfl
@[simp] theorem State.outFlush_reg (r : Reg) : s.outFlush.reg r = s.reg r := rfl
@[simp] theorem State.memWrite_reg (a v : Word) (r : Reg) : (s.memWrite a v).reg r = s.reg r := rfl
@[simp] theorem State.updateFlags_reg (r : Word) (q : Reg) : (s.updateFlags r).reg q = s.reg q := rfl
@[simp] theorem State.setHold_reg (h : Hold) (r : Reg) : (s.setHold h).reg r = s.reg r := rfl
@[simp] theorem State.halt_reg (r : Reg) : s.halt.reg r = s.reg r := rfl
@[simp] theorem State.raiseFatal_reg (k : FaultKind) (w : Word) (r : Reg) : (s.raiseFatal k w).reg r = s.reg r := rfl
@[simp] theorem State.provide_reg (ms : List (Option Byte)) (r : Reg) : (s.provide ms).reg r = s.reg r := rfl
@[simp] theorem State.latch_reg (c : Byte) (r : Reg) : (s.latch c).reg r = s.reg r := rfl
@[simp] theorem State.clearStatus_reg (r : Reg) : s.clearStatus.reg r = s.reg r := rfl

theorem State.writeResult_reg (dr r : Reg) (v : Word) :
    (s.writeResult dr v).reg r = if dr = r then v else s.reg r := s.reg_setReg dr r v

theorem State.trapEntry_reg (r : Reg) : s.trapEntry.reg r = if 7 = r then s.pc else s.reg r := s.reg_setReg 7 r s.pc

@[simp] theorem State.reset_reg (r : Reg) : State.reset.reg r = 0 := by
  simp [State.reset, State.reg]

end Sys2Proof.Machine
end

