-- ==== Sys2Proof/Laws/Arith.lean ====
section
/-! SUPPORT. Sign extension, address sums and flags in terms of signed numbers (00_scope.md R9, R10, 10_state.md R27). -/

namespace Sys2Proof.Machine

/-- The algorithm of R9 is the library's sign extension. -/
theorem sext_eq_signExtend {n : Nat} (v : BitVec n) (h0 : 0 < n) (h : n ≤ 16) : sext v = v.signExtend 16 := by
  refine BitVec.eq_of_getLsbD_eq fun k hk => ?_
  have ones : ∀ j < 16, (0xFFFF#16).getLsbD j = true := by decide
  unfold sext
  rw [BitVec.getLsbD_signExtend, BitVec.msb_eq_getLsbD_last]
  by_cases hb : v.getLsbD (n - 1) = true <;> by_cases hkn : k < n
  · by_cases e : k = n - 1
    · subst e; simp [hb, hkn, hk]
    · have : k < n - 1 := by omega
      simp [hb, hkn, this, hk]
  · have : ¬ k < n - 1 := by omega
    simp only [hb, if_true, BitVec.getLsbD_or, BitVec.getLsbD_setWidth, hk, BitVec.getLsbD_shiftLeft,
      ones (k - (n - 1)) (by omega)]
    simp [hkn, this]
  · simp [hb, hkn, hk]
  · simp [hb, hkn, hk, BitVec.getLsbD_of_ge v k (by omega)]

/-- Adding a sign-extended field is adding its signed value modulo 2^16 (R10). -/
theorem add_sext {n : Nat} (a : Word) (v : BitVec n) (h0 : 0 < n) (h : n ≤ 16) :
    a + sext v = BitVec.ofInt 16 (a.toNat + v.toInt) := by
  rw [sext_eq_signExtend v h0 h]
  apply BitVec.eq_of_toInt_eq
  rw [BitVec.toInt_add, BitVec.toInt_signExtend_of_le h, BitVec.toInt_ofInt, BitVec.toInt_eq_toNat_bmod]
  simp

theorem flagOf_eq_negative_iff (r : Word) : flagOf r = condNegative ↔ r.getLsbD 15 = true := by
  unfold flagOf
  split
  · simp [*]
  · split <;> simp_all [condNegative, condZero, condPositive]

theorem flagOf_eq_zero_iff (r : Word) : flagOf r = condZero ↔ r = 0 := by
  unfold flagOf
  split
  · rename_i h
    have hr : ¬ r = 0#16 := fun e => by subst e; simp at h
    simp [hr, condNegative, condZero]
  · split <;> simp_all [condZero, condPositive]

theorem flagOf_eq_positive_iff (r : Word) : flagOf r = condPositive ↔ r ≠ 0 ∧ r.getLsbD 15 = false := by
  unfold flagOf
  split
  · simp_all [condNegative, condPositive]
  · split <;> simp_all [condZero, condPositive]

/-- Every result sets a legal flag (10_state.md R26). -/
theorem flagOf_legal (r : Word) : condLegal (flagOf r) := by
  unfold flagOf condLegal
  split
  · simp
  · split <;> simp

theorem toInt_neg_iff_bit15 (r : Word) : r.toInt < 0 ↔ r.getLsbD 15 = true := by
  rw [← BitVec.msb_eq_getLsbD_last (w := 16), BitVec.msb_eq_toInt]
  simp

end Sys2Proof.Machine
end

