-- ==== Sys2Proof/Laws/Decode.lean ====
section
/-! SUPPORT. The bits of the decoder's fields and of the encoder's words (30_encoding.md R61, R69). -/

namespace Sys2Proof

/-- A field's bits are the word's bits from its low end on (R61). -/
@[simp] theorem chunk_getLsbD (w : Word) (lo len i : Nat) :
    (chunk w lo len).getLsbD i = (decide (i < len) && w.getLsbD (lo + i)) := by
  simp [chunk, BitVec.getLsbD_ofNat, Nat.testBit_shiftRight, BitVec.testBit_toNat]

@[simp] theorem chunk_getElem (w : Word) (lo len i : Nat) (h : i < len) : (chunk w lo len)[i] = w.getLsbD (lo + i) := by
  rw [← BitVec.getLsbD_eq_getElem, chunk_getLsbD]
  simp [h]

/-- A field is the library's bit slice (R61). -/
theorem chunk_eq_extractLsb' (w : Word) (lo len : Nat) : chunk w lo len = w.extractLsb' lo len := rfl

/-- The bits of a format's word are the bits of its fields side by side (R69). -/
@[simp] theorem asWord_getLsbD {n : Nat} (v : BitVec n) (h : n = 16) (i : Nat) :
    (asWord v h).getLsbD i = v.getLsbD i := by
  simp [asWord]

@[simp] theorem asWord_getElem {n : Nat} (v : BitVec n) (h : n = 16) (i : Nat) (hi : i < 16) :
    (asWord v h)[i] = v[i]'(h ▸ hi) := by
  simp [asWord]

@[simp] theorem regBits_regField (w : Word) (lo : Nat) : regBits (regField w lo) = chunk w lo 3 := rfl

@[simp] theorem regBits_toFin (r : Reg) : (regBits r).toFin = r := rfl

theorem regBits_injective : Function.Injective regBits := fun _ _ h => congrArg BitVec.toFin h

/-- No 4-bit opcode is undefined (R70; 90_conflicts.md C2). -/
theorem kindOf_ne_undefined (op : BitVec 4) : kindOf op ≠ .undefined := by
  revert op; decide

/-- The halt sentinel is tested first (R72). -/
theorem decode_zero : decode 0 = .ok .haltSentinel := rfl

end Sys2Proof
end

