-- ==== Sys2Proof/Laws/Memory.lean ====
section
/-! SUPPORT. The laws of memory: read after write, other words alone, and the canonical form kept by every operation. -/

namespace Sys2Proof.Machine

/-! ### Storage cells -/

theorem cellAt_consCell_same (k : Nat) (b : Byte) (l : List Host.Cell)
    (h : cellAt k l = Memory.unlisted) : cellAt k (consCell k b l) = b := by
  unfold consCell
  split
  · rename_i hb; rw [h, hb]
  · simp [cellAt]

theorem cellAt_consCell_ne {k k' : Nat} (b : Byte) (l : List Host.Cell) (h : k' ≠ k) :
    cellAt k' (consCell k b l) = cellAt k' l := by
  unfold consCell
  split
  · rfl
  · simp [cellAt, h.symm]

/-- A key below every listed key holds the unlisted value. -/
theorem cellAt_of_lt (k : Nat) (l : List Host.Cell) (h : ∀ c ∈ l, k < c.1) : cellAt k l = Memory.unlisted := by
  induction l with
  | nil => rfl
  | cons c rest ih =>
    have hc : c.1 ≠ k := Nat.ne_of_gt (h c (by simp))
    simp only [cellAt, hc, if_false]
    exact ih fun d hd => h d (by simp [hd])

theorem cellAt_setCell_same (k : Nat) (b : Byte) (l : List Host.Cell) (h : l.Pairwise (fun c d => c.1 < d.1)) :
    cellAt k (setCell k b l) = b := by
  induction l with
  | nil => exact cellAt_consCell_same k b [] rfl
  | cons c rest ih =>
    obtain ⟨hc, hr⟩ := List.pairwise_cons.1 h
    unfold setCell
    split
    · rename_i hlt
      refine cellAt_consCell_same k b _ (cellAt_of_lt k _ ?_)
      intro d hd
      rcases List.mem_cons.1 hd with rfl | hd
      · exact hlt
      · exact Nat.lt_trans hlt (hc d hd)
    · split
      · rename_i heq
        exact cellAt_consCell_same k b _ (cellAt_of_lt k _ fun d hd => heq ▸ hc d hd)
      · rename_i hne
        simp [cellAt, Ne.symm hne, ih hr]

theorem cellAt_setCell_ne {k k' : Nat} (b : Byte) (l : List Host.Cell) (h : k' ≠ k) :
    cellAt k' (setCell k b l) = cellAt k' l := by
  induction l with
  | nil => exact cellAt_consCell_ne b [] h
  | cons c rest ih =>
    unfold setCell
    split
    · exact cellAt_consCell_ne b _ h
    · split
      · rename_i heq
        rw [cellAt_consCell_ne b _ h]
        simp [cellAt, heq ▸ h.symm]
      · simp only [cellAt, ih]

theorem mem_consCell {k : Nat} {b : Byte} {l : List Host.Cell} {d : Host.Cell} (h : d ∈ consCell k b l) :
    (d = (k, b) ∧ b ≠ Memory.unlisted) ∨ d ∈ l := by
  unfold consCell at h
  split at h
  · exact .inr h
  · rename_i hb
    exact (List.mem_cons.1 h).imp (fun e => ⟨e, hb⟩) id

theorem mem_setCell {k : Nat} {b : Byte} {l : List Host.Cell} {d : Host.Cell} (h : d ∈ setCell k b l) :
    (d = (k, b) ∧ b ≠ Memory.unlisted) ∨ d ∈ l := by
  induction l with
  | nil => exact mem_consCell h
  | cons c rest ih =>
    unfold setCell at h
    split at h
    · exact mem_consCell h
    · split at h
      · exact (mem_consCell h).imp id (List.mem_cons_of_mem c)
      · rcases List.mem_cons.1 h with rfl | h
        · exact .inr (by simp)
        · exact (ih h).imp id (List.mem_cons_of_mem c)

theorem pairwise_consCell {k : Nat} {b : Byte} {l : List Host.Cell} (hl : l.Pairwise (fun c d => c.1 < d.1))
    (h : ∀ c ∈ l, k < c.1) : (consCell k b l).Pairwise (fun c d => c.1 < d.1) := by
  unfold consCell
  split
  · exact hl
  · exact List.pairwise_cons.2 ⟨h, hl⟩

theorem pairwise_setCell (k : Nat) (b : Byte) (l : List Host.Cell) (h : l.Pairwise (fun c d => c.1 < d.1)) :
    (setCell k b l).Pairwise (fun c d => c.1 < d.1) := by
  induction l with
  | nil => exact pairwise_consCell h (by simp)
  | cons c rest ih =>
    obtain ⟨hc, hr⟩ := List.pairwise_cons.1 h
    unfold setCell
    split
    · rename_i hlt
      refine pairwise_consCell h fun d hd => ?_
      rcases List.mem_cons.1 hd with rfl | hd
      · exact hlt
      · exact Nat.lt_trans hlt (hc d hd)
    · split
      · rename_i heq
        exact pairwise_consCell hr fun d hd => heq ▸ hc d hd
      · rename_i hge hne
        refine List.pairwise_cons.2 ⟨fun d hd => ?_, ih hr⟩
        rcases mem_setCell hd with ⟨rfl, -⟩ | hd
        · simp only; omega
        · exact hc d hd

/-! ### Words -/

theorem highByte_append_lowByte (w : Word) : highByte w ++ lowByte w = w := by
  unfold highByte lowByte
  rw [BitVec.extractLsb'_append_extractLsb'_eq_extractLsb' (by omega)]
  simp

theorem cellKey_lt (a : Word) : cellKey a + 1 < Memory.size := by
  have := a.isLt
  simp only [cellKey, Memory.size, Config.memWords]
  omega

theorem cellKey_ne {a b : Word} (h : a ≠ b) : cellKey a ≠ cellKey b := by
  have : a.toNat ≠ b.toNat := fun e => h (BitVec.eq_of_toNat_eq e)
  simp only [cellKey]
  omega

/-- A word reads as it was written, in a memory in canonical form (20_memory.md R46, R54). -/
theorem Memory.readWord_writeWord_same (m : Memory) (a v : Word) (h : m.wf) : (m.writeWord a v).readWord a = v := by
  have hp := pairwise_setCell (cellKey a) (highByte v) m.cells h.1
  unfold Memory.readWord Memory.writeWord
  rw [cellAt_setCell_same _ _ _ hp, cellAt_setCell_ne _ _ (by omega), cellAt_setCell_same _ _ _ h.1,
    highByte_append_lowByte]

/-- A write leaves every other word alone (20_memory.md R46). -/
theorem Memory.readWord_writeWord_ne (m : Memory) {a b : Word} (v : Word) (h : b ≠ a) :
    (m.writeWord a v).readWord b = m.readWord b := by
  have := cellKey_ne h
  have hb : cellKey a = 2 * a.toNat := rfl
  have hb' : cellKey b = 2 * b.toNat := rfl
  unfold Memory.readWord Memory.writeWord
  rw [cellAt_setCell_ne _ _ (by omega), cellAt_setCell_ne _ _ (by omega), cellAt_setCell_ne _ _ (by omega),
    cellAt_setCell_ne _ _ (by omega)]

/-- A write keeps the canonical form. -/
theorem Memory.writeWord_wf (m : Memory) (a v : Word) (h : m.wf) : (m.writeWord a v).wf := by
  refine ⟨pairwise_setCell _ _ _ (pairwise_setCell _ _ _ h.1), fun c hc => ?_⟩
  have hk := cellKey_lt a
  rcases mem_setCell hc with ⟨rfl, hb⟩ | hc
  · exact ⟨hk, hb⟩
  · rcases mem_setCell hc with ⟨rfl, hb⟩ | hc
    · exact ⟨by simp only; omega, hb⟩
    · exact h.2 c hc

theorem State.reset_mem_wf : State.reset.mem.wf := by
  simp [State.reset, Memory.wf]

@[simp] theorem State.reset_readWord (a : Word) : State.reset.mem.readWord a = 0 := by
  simp [State.reset, Memory.readWord, cellAt, Memory.unlisted]

theorem State.latch_mem_wf (s : State) (c : Byte) (h : s.mem.wf) : (s.latch c).mem.wf := by
  rw [State.latch_mem]
  exact Memory.writeWord_wf _ _ _ (Memory.writeWord_wf _ _ _ h)

theorem State.clearStatus_mem_wf (s : State) (h : s.mem.wf) : s.clearStatus.mem.wf := by
  rw [State.clearStatus_mem]
  exact Memory.writeWord_wf _ _ _ h

theorem copyWords_wf (a : Word) (ws : List Word) (m : Memory) (h : m.wf) : (copyWords a ws m).wf := by
  induction ws generalizing a m with
  | nil => exact h
  | cons w rest ih => exact ih (a + 1) _ (Memory.writeWord_wf m a w h)

end Sys2Proof.Machine
end

