-- ==== Sys2Proof/Laws/Device.lean ====
section
/-! SUPPORT. What the device primitives and the read path can do (10_state.md R31, 20_memory.md R42), said once. -/

namespace Sys2Proof.Machine

/-! ### The primitives -/

theorem nextChar_some_cons (c : Byte) (rest : List (Option Byte)) : nextChar (some c :: rest) = some (c, rest) := rfl

theorem nextChar_none_cons (rest : List (Option Byte)) : nextChar (none :: rest) = nextChar rest := rfl

/-- What is left of the stream after a character is a suffix of it, and shorter. -/
theorem nextChar_suffix {l rest : List (Option Byte)} {c : Byte} (h : nextChar l = some (c, rest)) :
    rest <:+ l ∧ rest.length < l.length := by
  induction l with
  | nil => simp [nextChar] at h
  | cons m l ih =>
    cases m with
    | none =>
      obtain ⟨h1, h2⟩ := ih h
      exact ⟨h1.trans (List.suffix_cons _ _), Nat.lt_succ_of_lt h2⟩
    | some d =>
      simp only [nextChar, Option.some.injEq, Prod.mk.injEq] at h
      exact ⟨h.2 ▸ List.suffix_cons _ _, by simp [h.2]⟩

/-- No character is left exactly when every moment has none. -/
theorem nextChar_eq_none_iff (l : List (Option Byte)) : nextChar l = none ↔ ∀ m ∈ l, m = none := by
  induction l with
  | nil => simp [nextChar]
  | cons m l ih => cases m <;> simp [nextChar, ih]

theorem State.kbAvail_some {s : State} {c : Byte} {rest : List (Option Byte)} (h : s.kbIn = some c :: rest) :
    s.kbAvail = (true, s.record (.kbAvail true)) := by
  simp only [State.kbAvail, h]

theorem State.kbAvail_not {s : State} (h : ∀ c rest, s.kbIn ≠ some c :: rest) :
    s.kbAvail = (false, { s with kbIn := s.kbIn.tail }.record (.kbAvail false)) := by
  rcases hk : s.kbIn with _ | ⟨_ | c, rest⟩
  · cases s; simp_all [State.kbAvail, State.record]
  · simp [State.kbAvail, hk]
  · exact absurd hk (h c rest)

theorem State.kbRead_some {s : State} {c : Byte} {rest : List (Option Byte)} (h : nextChar s.kbIn = some (c, rest)) :
    s.kbRead = some (c, { s with kbIn := rest }.record (.kbRead c)) := by
  simp only [State.kbRead, h]

theorem State.kbRead_none {s : State} (h : nextChar s.kbIn = none) : s.kbRead = none := by
  simp only [State.kbRead, h]

/-- The host's duty of 20_memory.md R44, as the model has it: after `KbAvail` = true, `KbRead` gives a character. -/
theorem State.kbRead_of_kbAvail {s s1 : State} (h : s.kbAvail = (true, s1)) : ∃ c s2, s1.kbRead = some (c, s2) := by
  rcases hk : s.kbIn with _ | ⟨_ | c, rest⟩
  · simp [State.kbAvail, hk] at h
  · simp [State.kbAvail, hk] at h
  · rw [State.kbAvail_some hk] at h
    obtain rfl : s.record (.kbAvail true) = s1 := (Prod.mk.inj h).2
    exact ⟨c, _, State.kbRead_some (rest := rest) (by simp [hk, nextChar])⟩

/-! ### A status read -/

/-- A status read with a character at this moment: it is consumed and latched (R42). -/
theorem State.pollKeyboard_some {s : State} {c : Byte} {rest : List (Option Byte)} (h : s.kbIn = some c :: rest) :
    s.pollKeyboard =
      State.latch { s with kbIn := rest, trace := s.trace ++ [.kbAvail true] ++ [.kbRead c] } c := by
  have hr : (s.record (.kbAvail true)).kbRead = some (c, _) := State.kbRead_some (rest := rest) (by simp [h, nextChar])
  simp only [State.pollKeyboard, State.kbAvail_some h, hr]
  rfl

/-- A status read with no character at this moment: bit 15 of KBSR is cleared (R42). -/
theorem State.pollKeyboard_not {s : State} (h : ∀ c rest, s.kbIn ≠ some c :: rest) :
    s.pollKeyboard =
      State.clearStatus { s with kbIn := s.kbIn.tail, trace := s.trace ++ [.kbAvail false] } := by
  simp only [State.pollKeyboard, State.kbAvail_not h]
  rfl

/-! ### The read path -/

/-- A read elsewhere than the status address has no side effect (R42). -/
theorem State.memRead_ne {s : State} {a : Word} (h : a ≠ s.config.kbsrAddr) : s.memRead a = (s.mem.readWord a, s) := by
  simp [State.memRead, h]

/-- A read of the status address polls, then reads the updated cell (R42). -/
theorem State.memRead_kbsr (s : State) :
    s.memRead s.config.kbsrAddr = (s.pollKeyboard.mem.readWord s.config.kbsrAddr, s.pollKeyboard) := by
  simp [State.memRead]

/-- The word read is what the cell then holds. -/
theorem State.memRead_fst (s : State) (a : Word) : (s.memRead a).1 = (s.memRead a).2.mem.readWord a := rfl

/-- What reads and device calls leave alone: registers, pc, cond, run_state, the configuration, every word but KBSR and
KBDR, and the canonical form. The trace only grows and the stream is only consumed. -/
structure DeviceFrame (s t : State) : Prop where
  regs : t.regs = s.regs
  pc : t.pc = s.pc
  cond : t.cond = s.cond
  runState : t.runState = s.runState
  config : t.config = s.config
  word : ∀ a, a ≠ s.config.kbsrAddr → a ≠ s.config.kbdrAddr → t.mem.readWord a = s.mem.readWord a
  memWf : s.mem.wf → t.mem.wf
  trace : s.trace <+: t.trace
  kbIn : t.kbIn <:+ s.kbIn

theorem DeviceFrame.refl (s : State) : DeviceFrame s s :=
  ⟨rfl, rfl, rfl, rfl, rfl, fun _ _ _ => rfl, id, List.prefix_refl _, List.suffix_refl _⟩

theorem DeviceFrame.trans {s t u : State} (h : DeviceFrame s t) (k : DeviceFrame t u) : DeviceFrame s u where
  regs := k.regs.trans h.regs
  pc := k.pc.trans h.pc
  cond := k.cond.trans h.cond
  runState := k.runState.trans h.runState
  config := k.config.trans h.config
  word a h1 h2 := (k.word a (h.config ▸ h1) (h.config ▸ h2)).trans (h.word a h1 h2)
  memWf w := k.memWf (h.memWf w)
  trace := h.trace.trans k.trace
  kbIn := k.kbIn.trans h.kbIn

theorem DeviceFrame.reg {s t : State} (h : DeviceFrame s t) (r : Reg) : t.reg r = s.reg r := State.reg_congr h.regs r

theorem DeviceFrame.record (s : State) (e : DevEvent) : DeviceFrame s (s.record e) :=
  ⟨rfl, rfl, rfl, rfl, rfl, fun _ _ _ => rfl, id, List.prefix_append _ _, List.suffix_refl _⟩

theorem DeviceFrame.setHold (s : State) (h : Hold) : DeviceFrame s (s.setHold h) :=
  ⟨rfl, rfl, rfl, rfl, rfl, fun _ _ _ => rfl, id, List.prefix_refl _, List.suffix_refl _⟩

theorem State.pollKeyboard_frame (s : State) : DeviceFrame s s.pollKeyboard ∧ s.pollKeyboard.hold = s.hold := by
  by_cases h : ∃ c rest, s.kbIn = some c :: rest
  · obtain ⟨c, rest, h⟩ := h
    rw [State.pollKeyboard_some h]
    refine ⟨⟨rfl, rfl, rfl, rfl, rfl, fun a h1 h2 => ?_, fun w => State.latch_mem_wf _ c w, ?_, ?_⟩, rfl⟩
    · rw [State.latch_mem, Memory.readWord_writeWord_ne _ _ h2, Memory.readWord_writeWord_ne _ _ h1]
    · simp
    · simp [h]
  · have h : ∀ c rest, s.kbIn ≠ some c :: rest := fun c rest e => h ⟨c, rest, e⟩
    rw [State.pollKeyboard_not h]
    refine ⟨⟨rfl, rfl, rfl, rfl, rfl, fun a h1 _ => ?_, fun w => State.clearStatus_mem_wf _ w, ?_, ?_⟩, rfl⟩
    · rw [State.clearStatus_mem, Memory.readWord_writeWord_ne _ _ h1]
    · simp
    · simp [List.tail_suffix]

/-- Every memory read keeps the frame, and leaves the step in progress alone. -/
theorem State.memRead_frame (s : State) (a : Word) :
    DeviceFrame s (s.memRead a).2 ∧ (s.memRead a).2.hold = s.hold := by
  by_cases h : a = s.config.kbsrAddr
  · subst h
    rw [State.memRead_kbsr]
    exact s.pollKeyboard_frame
  · rw [State.memRead_ne h]
    exact ⟨.refl s, rfl⟩

end Sys2Proof.Machine
end

