-- ==== Sys2Proof/Laws/Trap.lean ====
section
/-! SUPPORT. What the trap services can do (45_trap.md R144 to R154), said once. -/

namespace Sys2Proof.Machine

/-! ### GETC -/

theorem getcService_some {s : State} {c : Byte} {rest : List (Option Byte)} (h : nextChar s.kbIn = some (c, rest)) :
    getcService s =
      (State.setReg { s with kbIn := rest, trace := s.trace ++ [.kbRead c] } 0 (zext8 c)).setHold .idle := by
  simp only [getcService, State.kbRead_some h]
  rfl

theorem getcService_none {s : State} (h : nextChar s.kbIn = none) : getcService s = s.setHold .getc := by
  simp only [getcService, State.kbRead_none h]

/-- GETC reads the next character, or holds. -/
theorem getcService_cases (s : State) :
    (∃ c rest, nextChar s.kbIn = some (c, rest) ∧ getcService s =
      (State.setReg { s with kbIn := rest, trace := s.trace ++ [.kbRead c] } 0 (zext8 c)).setHold .idle) ∨
    (nextChar s.kbIn = none ∧ getcService s = s.setHold .getc) := by
  rcases h : nextChar s.kbIn with _ | ⟨c, rest⟩
  · exact .inr ⟨rfl, getcService_none h⟩
  · exact .inl ⟨c, rest, rfl, getcService_some h⟩

/-! ### PUTS -/

theorem putsScan_zero (a : Word) (s : State) : putsScan 0 a s = s.setHold (.puts a) := rfl

theorem putsScan_succ (n : Nat) (a : Word) (s : State) :
    putsScan (n + 1) a s =
      if (s.memRead a).1 = 0x0000 then (s.memRead a).2.outFlush.setHold .idle
      else putsScan n (a + 1) ((s.memRead a).2.outWrite (lowByte (s.memRead a).1)) := rfl

theorem putsScan_frame (n : Nat) (a : Word) (s : State) : DeviceFrame s (putsScan n a s) := by
  induction n generalizing a s with
  | zero => exact .setHold s _
  | succ n ih =>
    have hr := (s.memRead_frame a).1
    rw [putsScan_succ]
    split
    · exact (hr.trans (.record _ .outFlush)).trans (.setHold _ _)
    · exact (hr.trans (.record _ _)).trans (ih _ _)

theorem putsService_frame (a : Word) (s : State) : DeviceFrame s (putsService a s) := putsScan_frame _ a s

/-- A PUTS scan ends with no step in progress, or stays in progress. -/
theorem putsScan_hold (n : Nat) (a : Word) (s : State) :
    (putsScan n a s).hold = .idle ∨ ∃ b, (putsScan n a s).hold = .puts b := by
  induction n generalizing a s with
  | zero => exact .inr ⟨a, rfl⟩
  | succ n ih =>
    rw [putsScan_succ]
    split
    · exact .inl rfl
    · exact ih _ _

/-- A scan cut after `n` words and then gone on with for `m` more is the scan of `n + m` words. -/
theorem putsScan_add (n m : Nat) (a : Word) (s : State) (b : Word) (h : (putsScan n a s).hold = .puts b) :
    ∃ u, putsScan n a s = u.setHold (.puts b) ∧ putsScan (n + m) a s = putsScan m b u := by
  induction n generalizing a s with
  | zero =>
    obtain rfl : a = b := by simpa [putsScan_zero] using h
    exact ⟨s, rfl, by simp⟩
  | succ n ih =>
    rw [Nat.succ_add, putsScan_succ] at *
    split at h
    · simp at h
    · rename_i hw
      rw [if_neg hw, putsScan_succ, if_neg hw]
      exact ih _ _ h

/-! ### Dispatch -/

/-- The generic TRAP row on a vector of another row is that row's service (45_trap.md R144). -/
theorem trapService_getc (ign : BitVec 4) (s : State) : trapService ign 0x20 s = getcService s := rfl
theorem trapService_out (ign : BitVec 4) (s : State) : trapService ign 0x21 s = outService s := rfl
theorem trapService_puts (ign : BitVec 4) (s : State) : trapService ign 0x22 s = putsService (s.reg 0) s := rfl
theorem trapService_halt (ign : BitVec 4) (s : State) : trapService ign 0x25 s = s.halt := rfl

/-- Every other vector is fatal (45_trap.md R144, R148, R149, R151). -/
theorem trapService_unknown (ign : BitVec 4) (vec : BitVec 8) (s : State) (h0 : vec ≠ 0x20) (h1 : vec ≠ 0x21)
    (h2 : vec ≠ 0x22) (h5 : vec ≠ 0x25) : trapService ign vec s = unknownVector ign vec s := by
  unfold trapService
  split
  · rename_i h; exact absurd (BitVec.eq_of_toNat_eq h) h0
  · rename_i h; exact absurd (BitVec.eq_of_toNat_eq h) h1
  · rename_i h; exact absurd (BitVec.eq_of_toNat_eq h) h2
  · rename_i h; exact absurd (BitVec.eq_of_toNat_eq h) h5
  · rfl

/-- On a well-formed generic TRAP the dispatch is the fatal error. -/
theorem trapService_of_wellFormed {ign : BitVec 4} {vec : BitVec 8} (h : (Instr.trap ign vec).wellFormed = true)
    (s : State) : trapService ign vec s = unknownVector ign vec s := by
  simp only [Instr.wellFormed, hasTrapRow, Bool.not_eq_true', Bool.and_eq_false_iff, decide_eq_false_iff_not,
    not_le] at h
  apply trapService_unknown <;> (rintro rfl; simp at h)

end Sys2Proof.Machine
end

