-- ==== Sys2Proof/Laws/Step.lean ====
section
/-! SUPPORT. What one step can do (40_cycle.md R90, R93), said once: one equation for each way into a step. -/

namespace Sys2Proof.Machine

theorem fetchAdvance_fst (s : State) : (fetchAdvance s).1 = (s.memRead s.pc).1 := rfl

theorem fetchAdvance_snd (s : State) :
    (fetchAdvance s).2 = (s.memRead s.pc).2.setPc ((s.memRead s.pc).2.pc + 1) := rfl

/-- After the fetch pc is advanced by one (R92). -/
theorem fetchAdvance_pc (s : State) : (fetchAdvance s).2.pc = s.pc + 1 := by
  rw [fetchAdvance_snd, State.setPc_pc, (s.memRead_frame s.pc).1.pc]

theorem fetchAdvance_regs (s : State) : (fetchAdvance s).2.regs = s.regs := (s.memRead_frame s.pc).1.regs
theorem fetchAdvance_cond (s : State) : (fetchAdvance s).2.cond = s.cond := (s.memRead_frame s.pc).1.cond
theorem fetchAdvance_runState (s : State) : (fetchAdvance s).2.runState = s.runState := (s.memRead_frame s.pc).1.runState
theorem fetchAdvance_hold (s : State) : (fetchAdvance s).2.hold = s.hold := (s.memRead_frame s.pc).2
theorem fetchAdvance_config (s : State) : (fetchAdvance s).2.config = s.config := (s.memRead_frame s.pc).1.config

/-- A fetch elsewhere than the status address reads the cell and moves pc, nothing else (R91). -/
theorem fetchAdvance_ne {s : State} (h : s.pc ≠ s.config.kbsrAddr) :
    fetchAdvance s = (s.mem.readWord s.pc, s.setPc (s.pc + 1)) := by
  simp only [fetchAdvance, State.memRead_ne h]

theorem executeWord_ok {w : Word} {i : Instr} (h : decode w = .ok i) (s : State) : executeWord w s = exec i s := by
  simp only [executeWord, h]

/-- A ready machine fetches and executes. -/
theorem step_ready {s : State} (h : s.ready) : step s = executeWord (fetchAdvance s).1 (fetchAdvance s).2 := by
  simp only [step, cycle, resume, h.1, h.2]
  rfl

theorem step_getc {s : State} (h : s.runState = .running) (hh : s.hold = .getc) : step s = .next (getcService s) := by
  simp only [step, cycle, resume, h, hh]

theorem step_puts {s : State} {a : Word} (h : s.runState = .running) (hh : s.hold = .puts a) :
    step s = .next (putsService a s) := by
  simp only [step, cycle, resume, h, hh]

/-- Outside RUNNING nothing changes (R90). -/
theorem step_stopped {s : State} (h : s.runState ≠ .running) : step s = .next s := by
  unfold step cycle
  split
  · exact absurd ‹_› h
  · rfl
  · rfl

/-- A placed word is fetched by the next step, where pc is not the status address. -/
theorem fetchAdvance_placeWord {s : State} (w : Word) (hw : s.mem.wf) (h : s.pc ≠ s.config.kbsrAddr) :
    fetchAdvance (placeWord s w) = (w, (placeWord s w).setPc (s.pc + 1)) := by
  have hp : (placeWord s w).pc ≠ (placeWord s w).config.kbsrAddr := h
  rw [fetchAdvance_ne hp]
  exact congrArg (·, _) (Memory.readWord_writeWord_same s.mem s.pc w hw)

theorem placeWord_ready (s : State) (w : Word) : (placeWord s w).ready := ⟨rfl, rfl⟩

end Sys2Proof.Machine
end

