-- ==== Sys2Proof/Laws/Exec.lean ====
section
/-! SUPPORT. One equation per constructor: the state `exec` answers, over the shared operations. Later proofs cite these and
never unfold a meaning. -/

namespace Sys2Proof.Machine

variable (s : State)

theorem exec_haltSentinel :
    exec .haltSentinel s = .next (s.halt) := rfl
theorem exec_br (n z p : Bool) (off : BitVec 9) :
    exec (.br n z p off) s = .next (if branchTaken n z p s.cond then s.setPc (pcRelative s off) else s) := rfl
theorem exec_addReg (dr sr1 sr2 : Reg) (ign : BitVec 2) :
    exec (.addReg dr sr1 sr2 ign) s = .next (s.writeResult dr (s.reg sr1 + s.reg sr2)) := rfl
theorem exec_addImm (dr sr1 : Reg) (imm : BitVec 5) :
    exec (.addImm dr sr1 imm) s = .next (s.writeResult dr (s.reg sr1 + sext imm)) := rfl
theorem exec_andReg (dr sr1 sr2 : Reg) (ign : BitVec 2) :
    exec (.andReg dr sr1 sr2 ign) s = .next (s.writeResult dr (s.reg sr1 &&& s.reg sr2)) := rfl
theorem exec_andImm (dr sr1 : Reg) (imm : BitVec 5) :
    exec (.andImm dr sr1 imm) s = .next (s.writeResult dr (s.reg sr1 &&& sext imm)) := rfl
theorem exec_not (dr sr : Reg) (ign : BitVec 6) :
    exec (.not dr sr ign) s = .next (s.writeResult dr (~~~ (s.reg sr))) := rfl
theorem exec_ld (dr : Reg) (off : BitVec 9) :
    exec (.ld dr off) s = .next (loadFrom dr (pcRelative s off) s) := rfl
theorem exec_ldi (dr : Reg) (off : BitVec 9) :
    exec (.ldi dr off) s = .next (loadFrom dr (indirect s off).1 (indirect s off).2) := rfl
theorem exec_ldr (dr base : Reg) (off : BitVec 6) :
    exec (.ldr dr base off) s = .next (loadFrom dr (baseOffset s base off) s) := rfl
theorem exec_lea (dr : Reg) (off : BitVec 9) :
    exec (.lea dr off) s = .next (s.writeResult dr (pcRelative s off)) := rfl
theorem exec_st (sr : Reg) (off : BitVec 9) :
    exec (.st sr off) s = .next (s.memWrite (pcRelative s off) (s.reg sr)) := rfl
theorem exec_sti (sr : Reg) (off : BitVec 9) :
    exec (.sti sr off) s = .next ((indirect s off).2.memWrite (indirect s off).1 ((indirect s off).2.reg sr)) := rfl
theorem exec_str (sr base : Reg) (off : BitVec 6) :
    exec (.str sr base off) s = .next (s.memWrite (baseOffset s base off) (s.reg sr)) := rfl
theorem exec_jmp (base : Reg) (ignHi : BitVec 3) (ignLo : BitVec 6) :
    exec (.jmp base ignHi ignLo) s = .next (s.setPc (s.reg base)) := rfl
theorem exec_jsr (off : BitVec 11) :
    exec (.jsr off) s = .next ((s.setReg 7 s.pc).setPc (s.pc + sext off)) := rfl
theorem exec_jsrr (base : Reg) (ignHi : BitVec 2) (ignLo : BitVec 6) :
    exec (.jsrr base ignHi ignLo) s = .next ((s.setReg 7 s.pc).setPc ((s.setReg 7 s.pc).reg base)) := rfl
theorem exec_trap (ign : BitVec 4) (vec : BitVec 8) :
    exec (.trap ign vec) s = .next (trapService ign vec s.trapEntry) := rfl
theorem exec_getc (ign : BitVec 4) :
    exec (.getc ign) s = .next (getcService s.trapEntry) := rfl
theorem exec_out (ign : BitVec 4) :
    exec (.out ign) s = .next (outService s.trapEntry) := rfl
theorem exec_puts (ign : BitVec 4) :
    exec (.puts ign) s = .next (putsService (s.trapEntry.reg 0) s.trapEntry) := rfl
theorem exec_inChar (ign : BitVec 4) :
    exec (.inChar ign) s = .next (s.trapEntry.raiseFatal .unknownTrapVector (encodeTrap ign 0x23)) := rfl
theorem exec_putsp (ign : BitVec 4) :
    exec (.putsp ign) s = .next (s.trapEntry.raiseFatal .unknownTrapVector (encodeTrap ign 0x24)) := rfl
theorem exec_halt (ign : BitVec 4) :
    exec (.halt ign) s = .next (s.trapEntry.halt) := rfl
theorem exec_rti (ign : BitVec 12) :
    exec (.rti ign) s = .next (s.raiseFatal .unimplementedOpcode (encode (.rti ign))) := rfl
theorem exec_res (ign : BitVec 12) :
    exec (.res ign) s = .next (s.raiseFatal .unimplementedOpcode (encode (.res ign))) := rfl

/-- The PUTS step keeps the device frame around the R7 write (cite it: unfolding the scan does not end). -/
theorem exec_puts_frame (ign : BitVec 4) :
    ∃ t, exec (.puts ign) s = .next t ∧ DeviceFrame s.trapEntry t :=
  ⟨_, exec_puts s ign, putsService_frame (s.trapEntry.reg 0) s.trapEntry⟩

/-! ### What a load does around its read -/

theorem loadFrom_eq (dr : Reg) (ea : Word) : loadFrom dr ea s = (s.memRead ea).2.writeResult dr (s.memRead ea).1 := rfl

/-- A load leaves pc, run_state, the step in progress and the configuration. -/
theorem loadFrom_frame (dr : Reg) (ea : Word) :
    (loadFrom dr ea s).pc = s.pc ∧ (loadFrom dr ea s).runState = s.runState ∧ (loadFrom dr ea s).hold = s.hold ∧
      (loadFrom dr ea s).config = s.config :=
  have h := s.memRead_frame ea
  ⟨h.1.pc, h.1.runState, h.2, h.1.config⟩

/-- A load away from the status address reads the cell and writes the register and the flags. -/
theorem loadFrom_ne (dr : Reg) {ea : Word} (h : ea ≠ s.config.kbsrAddr) :
    loadFrom dr ea s = s.writeResult dr (s.mem.readWord ea) := by
  simp only [loadFrom, State.memRead_ne h]

/-- A pointer away from the status address is read with no side effect. -/
theorem indirect_ne (off : BitVec 9) (h : pcRelative s off ≠ s.config.kbsrAddr) :
    indirect s off = (s.mem.readWord (pcRelative s off), s) := State.memRead_ne h

theorem indirect_frame (off : BitVec 9) :
    DeviceFrame s (indirect s off).2 ∧ (indirect s off).2.hold = s.hold := s.memRead_frame _

end Sys2Proof.Machine
end

