-- ==== Sys2Proof/Laws/PerInstr.lean ====
section
/-! SUPPORT. Facts stated for every instruction, one lemma per constructor. Family `TableRow`: the encoder's word lies in the
instruction's row of spec/opcode_table.json (its match under its mask). -/

namespace Sys2Proof.Laws.TableRow

/-- The (match, mask) pair of the instruction's row in spec/opcode_table.json. -/
def row : Instr → Word × Word
  | .haltSentinel => (0x0000, 0xFFFF)
  | .br _ _ _ _ => (0x0000, 0xF000)
  | .addReg _ _ _ _ => (0x1000, 0xF020)
  | .addImm _ _ _ => (0x1020, 0xF020)
  | .ld _ _ => (0x2000, 0xF000)
  | .st _ _ => (0x3000, 0xF000)
  | .jsr _ => (0x4800, 0xF800)
  | .jsrr _ _ _ => (0x4000, 0xF800)
  | .andReg _ _ _ _ => (0x5000, 0xF020)
  | .andImm _ _ _ => (0x5020, 0xF020)
  | .ldr _ _ _ => (0x6000, 0xF000)
  | .str _ _ _ => (0x7000, 0xF000)
  | .rti _ => (0x8000, 0xF000)
  | .not _ _ _ => (0x9000, 0xF000)
  | .ldi _ _ => (0xA000, 0xF000)
  | .sti _ _ => (0xB000, 0xF000)
  | .jmp _ _ _ => (0xC000, 0xF000)
  | .res _ => (0xD000, 0xF000)
  | .lea _ _ => (0xE000, 0xF000)
  | .trap _ _ => (0xF000, 0xF000)
  | .getc _ => (0xF020, 0xF0FF)
  | .out _ => (0xF021, 0xF0FF)
  | .puts _ => (0xF022, 0xF0FF)
  | .inChar _ => (0xF023, 0xF0FF)
  | .putsp _ => (0xF024, 0xF0FF)
  | .halt _ => (0xF025, 0xF0FF)

/-- The instruction's word matches its row. -/
def Statement (i : Instr) : Prop := encode i &&& (row i).2 = (row i).1

/-- Two words are equal where their sixteen bits are. -/
theorem of_bits (i : Instr)
    (h : ∀ k < 16, ((encode i).getLsbD k && (row i).2.getLsbD k) = (row i).1.getLsbD k) : Statement i :=
  BitVec.eq_of_getLsbD_eq fun k hk => by rw [BitVec.getLsbD_and]; exact h k hk

theorem haltSentinel : Statement .haltSentinel := rfl
theorem br (n z p : Bool) (off : BitVec 9) : Statement (.br n z p off) :=
  of_bits _ fun k hk => by
    simp only [encode, row, asWord_getLsbD, BitVec.getLsbD_append]
    interval_cases k <;> simp
theorem addReg (dr sr1 sr2 : Reg) (ign : BitVec 2) : Statement (.addReg dr sr1 sr2 ign) :=
  of_bits _ fun k hk => by
    simp only [encode, row, asWord_getLsbD, BitVec.getLsbD_append]
    interval_cases k <;> simp
theorem addImm (dr sr1 : Reg) (imm : BitVec 5) : Statement (.addImm dr sr1 imm) :=
  of_bits _ fun k hk => by
    simp only [encode, row, asWord_getLsbD, BitVec.getLsbD_append]
    interval_cases k <;> simp
theorem ld (dr : Reg) (off : BitVec 9) : Statement (.ld dr off) :=
  of_bits _ fun k hk => by
    simp only [encode, row, asWord_getLsbD, BitVec.getLsbD_append]
    interval_cases k <;> simp
theorem st (sr : Reg) (off : BitVec 9) : Statement (.st sr off) :=
  of_bits _ fun k hk => by
    simp only [encode, row, asWord_getLsbD, BitVec.getLsbD_append]
    interval_cases k <;> simp
theorem jsr (off : BitVec 11) : Statement (.jsr off) :=
  of_bits _ fun k hk => by
    simp only [encode, row, asWord_getLsbD, BitVec.getLsbD_append]
    interval_cases k <;> simp
theorem jsrr (base : Reg) (ignHi : BitVec 2) (ignLo : BitVec 6) : Statement (.jsrr base ignHi ignLo) :=
  of_bits _ fun k hk => by
    simp only [encode, row, asWord_getLsbD, BitVec.getLsbD_append]
    interval_cases k <;> simp
theorem andReg (dr sr1 sr2 : Reg) (ign : BitVec 2) : Statement (.andReg dr sr1 sr2 ign) :=
  of_bits _ fun k hk => by
    simp only [encode, row, asWord_getLsbD, BitVec.getLsbD_append]
    interval_cases k <;> simp
theorem andImm (dr sr1 : Reg) (imm : BitVec 5) : Statement (.andImm dr sr1 imm) :=
  of_bits _ fun k hk => by
    simp only [encode, row, asWord_getLsbD, BitVec.getLsbD_append]
    interval_cases k <;> simp
theorem ldr (dr base : Reg) (off : BitVec 6) : Statement (.ldr dr base off) :=
  of_bits _ fun k hk => by
    simp only [encode, row, asWord_getLsbD, BitVec.getLsbD_append]
    interval_cases k <;> simp
theorem str (sr base : Reg) (off : BitVec 6) : Statement (.str sr base off) :=
  of_bits _ fun k hk => by
    simp only [encode, row, asWord_getLsbD, BitVec.getLsbD_append]
    interval_cases k <;> simp
theorem rti (ign : BitVec 12) : Statement (.rti ign) :=
  of_bits _ fun k hk => by
    simp only [encode, row, asWord_getLsbD, BitVec.getLsbD_append]
    interval_cases k <;> simp
theorem not (dr sr : Reg) (ign : BitVec 6) : Statement (.not dr sr ign) :=
  of_bits _ fun k hk => by
    simp only [encode, row, asWord_getLsbD, BitVec.getLsbD_append]
    interval_cases k <;> simp
theorem ldi (dr : Reg) (off : BitVec 9) : Statement (.ldi dr off) :=
  of_bits _ fun k hk => by
    simp only [encode, row, asWord_getLsbD, BitVec.getLsbD_append]
    interval_cases k <;> simp
theorem sti (sr : Reg) (off : BitVec 9) : Statement (.sti sr off) :=
  of_bits _ fun k hk => by
    simp only [encode, row, asWord_getLsbD, BitVec.getLsbD_append]
    interval_cases k <;> simp
theorem jmp (base : Reg) (ignHi : BitVec 3) (ignLo : BitVec 6) : Statement (.jmp base ignHi ignLo) :=
  of_bits _ fun k hk => by
    simp only [encode, row, asWord_getLsbD, BitVec.getLsbD_append]
    interval_cases k <;> simp
theorem res (ign : BitVec 12) : Statement (.res ign) :=
  of_bits _ fun k hk => by
    simp only [encode, row, asWord_getLsbD, BitVec.getLsbD_append]
    interval_cases k <;> simp
theorem lea (dr : Reg) (off : BitVec 9) : Statement (.lea dr off) :=
  of_bits _ fun k hk => by
    simp only [encode, row, asWord_getLsbD, BitVec.getLsbD_append]
    interval_cases k <;> simp
theorem trap (ign : BitVec 4) (vec : BitVec 8) : Statement (.trap ign vec) :=
  of_bits _ fun k hk => by
    simp only [encode, encodeTrap, row, asWord_getLsbD, BitVec.getLsbD_append]
    interval_cases k <;> simp
theorem getc (ign : BitVec 4) : Statement (.getc ign) :=
  of_bits _ fun k hk => by
    simp only [encode, encodeTrap, row, asWord_getLsbD, BitVec.getLsbD_append]
    interval_cases k <;> simp
theorem out (ign : BitVec 4) : Statement (.out ign) :=
  of_bits _ fun k hk => by
    simp only [encode, encodeTrap, row, asWord_getLsbD, BitVec.getLsbD_append]
    interval_cases k <;> simp
theorem puts (ign : BitVec 4) : Statement (.puts ign) :=
  of_bits _ fun k hk => by
    simp only [encode, encodeTrap, row, asWord_getLsbD, BitVec.getLsbD_append]
    interval_cases k <;> simp
theorem inChar (ign : BitVec 4) : Statement (.inChar ign) :=
  of_bits _ fun k hk => by
    simp only [encode, encodeTrap, row, asWord_getLsbD, BitVec.getLsbD_append]
    interval_cases k <;> simp
theorem putsp (ign : BitVec 4) : Statement (.putsp ign) :=
  of_bits _ fun k hk => by
    simp only [encode, encodeTrap, row, asWord_getLsbD, BitVec.getLsbD_append]
    interval_cases k <;> simp
theorem halt (ign : BitVec 4) : Statement (.halt ign) :=
  of_bits _ fun k hk => by
    simp only [encode, encodeTrap, row, asWord_getLsbD, BitVec.getLsbD_append]
    interval_cases k <;> simp

end Sys2Proof.Laws.TableRow
end

