-- ==== Sys2Proof/Tests/Slice0.lean ====
section
/-! SUPPORT. The model's own tests. Expected values are those of 95_test_vectors.md (the vector is named at each test) or,
where a docstring says so, worked out by hand from the cited rule. After them: a witness for the hypotheses of every
obligation that has some. -/

namespace Sys2Proof.Tests

open Sys2Proof Sys2Proof.Machine Sys2Proof.Claims

/-! ### Small states -/

/-- Reset, then the listed registers, memory words and pc. -/
def start (pc : Word) (regs : List (Reg × Word)) (cells : List (Word × Word)) : State :=
  cells.foldl (fun s m => s.memWrite m.1 m.2) (regs.foldl (fun s r => s.setReg r.1 r.2) { State.reset with pc := pc })

/-- With condition flags. -/
def flagged (cond : Word) (s : State) : State := { s with cond := cond }

/-- With input to come. -/
def typed (input : List (Option Byte)) (s : State) : State := { s with kbIn := input }

/-- The state of an outcome; `s` where there is none. -/
def stateOf (s : State) : Host.Outcome State Fault Refusal → State
  | .next t => t
  | .fault _ => s
  | .refused _ => s

/-- The state after one step. -/
def stepped (s : State) : State := stateOf s (step s)

/-- The state after the step that runs the word `w`. -/
def after (w : Nat) (s : State) : State := stepped (s.withFetchWord 16 w)

/-! ### WellFormed refuses each ill-formed term -/

theorem test_illformed_br_all_zero : (Instr.br false false false 0).wellFormed = false := by decide
theorem test_illformed_trap_with_own_row :
    (Instr.trap 0 0x20).wellFormed = false ∧ (Instr.trap 3 0x25).wellFormed = false := by decide
theorem test_wellformed_neighbours :
    (Instr.br false false false 1).wellFormed = true ∧ (Instr.trap 0 0x1F).wellFormed = true ∧
      (Instr.trap 0 0x26).wellFormed = true := by decide

/-! ### Decoding: each word written field by field from the formats of 30_encoding.md R69 -/

theorem test_decode_haltSentinel : decode 0b0000000000000000#16 = .ok .haltSentinel := by decide
theorem test_decode_br : decode (0b0000#4 ++ 0b1#1 ++ 0b0#1 ++ 0b1#1 ++ 0b100000011#9) = .ok (.br true false true 0x103) := by
  decide
theorem test_decode_addReg :
    decode (0b0001#4 ++ 0b110#3 ++ 0b011#3 ++ 0b0#1 ++ 0b10#2 ++ 0b101#3) = .ok (.addReg 6 3 5 2) := by decide
theorem test_decode_addImm : decode (0b0001#4 ++ 0b110#3 ++ 0b011#3 ++ 0b1#1 ++ 0b10001#5) = .ok (.addImm 6 3 0x11) := by
  decide
theorem test_decode_ld : decode (0b0010#4 ++ 0b110#3 ++ 0b100000011#9) = .ok (.ld 6 0x103) := by decide
theorem test_decode_st : decode (0b0011#4 ++ 0b110#3 ++ 0b100000011#9) = .ok (.st 6 0x103) := by decide
theorem test_decode_jsr : decode (0b0100#4 ++ 0b1#1 ++ 0b10000000011#11) = .ok (.jsr 0x403) := by decide
theorem test_decode_jsrr :
    decode (0b0100#4 ++ 0b0#1 ++ 0b10#2 ++ 0b110#3 ++ 0b100001#6) = .ok (.jsrr 6 2 0x21) := by decide
theorem test_decode_andReg :
    decode (0b0101#4 ++ 0b110#3 ++ 0b011#3 ++ 0b0#1 ++ 0b10#2 ++ 0b101#3) = .ok (.andReg 6 3 5 2) := by decide
theorem test_decode_andImm : decode (0b0101#4 ++ 0b110#3 ++ 0b011#3 ++ 0b1#1 ++ 0b10001#5) = .ok (.andImm 6 3 0x11) := by
  decide
theorem test_decode_ldr : decode (0b0110#4 ++ 0b110#3 ++ 0b011#3 ++ 0b100001#6) = .ok (.ldr 6 3 0x21) := by decide
theorem test_decode_str : decode (0b0111#4 ++ 0b110#3 ++ 0b011#3 ++ 0b100001#6) = .ok (.str 6 3 0x21) := by decide
theorem test_decode_rti : decode (0b1000#4 ++ 0b100000000001#12) = .ok (.rti 0x801) := by decide
theorem test_decode_not : decode (0b1001#4 ++ 0b110#3 ++ 0b011#3 ++ 0b111111#6) = .ok (.not 6 3 63) := by decide
theorem test_decode_ldi : decode (0b1010#4 ++ 0b110#3 ++ 0b100000011#9) = .ok (.ldi 6 0x103) := by decide
theorem test_decode_sti : decode (0b1011#4 ++ 0b110#3 ++ 0b100000011#9) = .ok (.sti 6 0x103) := by decide
theorem test_decode_jmp : decode (0b1100#4 ++ 0b101#3 ++ 0b011#3 ++ 0b100001#6) = .ok (.jmp 3 5 0x21) := by decide
theorem test_decode_res : decode (0b1101#4 ++ 0b100000000001#12) = .ok (.res 0x801) := by decide
theorem test_decode_lea : decode (0b1110#4 ++ 0b110#3 ++ 0b100000011#9) = .ok (.lea 6 0x103) := by decide
theorem test_decode_trap : decode (0b1111#4 ++ 0b1010#4 ++ 0b00011111#8) = .ok (.trap 10 0x1F) := by decide
theorem test_decode_trap_rows :
    decode (0b1111#4 ++ 0b0000#4 ++ 0b00100000#8) = .ok (.getc 0) ∧
    decode (0b1111#4 ++ 0b0001#4 ++ 0b00100001#8) = .ok (.out 1) ∧
    decode (0b1111#4 ++ 0b0010#4 ++ 0b00100010#8) = .ok (.puts 2) ∧
    decode (0b1111#4 ++ 0b0011#4 ++ 0b00100011#8) = .ok (.inChar 3) ∧
    decode (0b1111#4 ++ 0b0100#4 ++ 0b00100100#8) = .ok (.putsp 4) ∧
    decode (0b1111#4 ++ 0b1111#4 ++ 0b00100101#8) = .ok (.halt 15) := by decide
/-- The table's numbering of bits: one word, bit 0 least significant. -/
theorem test_decodeTableWord : decodeTableWord 16 0x107D = some (.addImm 0 1 0x1D) ∧ decodeTableWord 16 0 = some .haltSentinel := by
  decide
/-- V1, words 0x697F and 0xFFFF. -/
theorem test_fields_V1 :
    (fields 0x697F).opcode = 6 ∧ (fields 0x697F).dr = 4 ∧ (fields 0x697F).sr1 = 5 ∧ (fields 0x697F).mode = true ∧
    sext (fields 0x697F).offset6 = 0xFFFF ∧ sext (fields 0x697F).pcOffset9 = 0xFF7F ∧
    sext (fields 0x697F).pcOffset11 = 0x017F ∧ (fields 0x697F).n = true ∧ (fields 0x697F).isBaseRegisterForm = false ∧
    (fields 0xFFFF).sr2 = 7 ∧ (fields 0xFFFF).trapvect8 = 0xFF ∧ (fields 0x0000).allZero = true := by decide

/-! ### Operands and flags -/

/-- E1, E2 and V2. -/
theorem test_sext :
    sext 0b00100#5 = 0x0004 ∧ sext 0b10100#5 = 0xFFF4 ∧ sext 0x0F#5 = 0x000F ∧ sext 0x10#5 = 0xFFF0 ∧
    sext 0x1F#6 = 0x001F ∧ sext 0x20#6 = 0xFFE0 ∧ sext 0x0FF#9 = 0x00FF ∧ sext 0x100#9 = 0xFF00 ∧
    sext 0x3FF#11 = 0x03FF ∧ sext 0x400#11 = 0xFC00 := by decide
/-- E3. -/
theorem test_flagOf :
    flagOf 0x0000 = condZero ∧ flagOf 0x0001 = condPositive ∧ flagOf 0x7FFF = condPositive ∧
    flagOf 0x8000 = condNegative ∧ flagOf 0xFFFF = condNegative := by decide

/-! ### One step per instruction -/

/-- V3.1: signed overflow wraps. -/
theorem test_addReg_overflow :
    let t := after 0x1401 (start 0x3000 [(0, 0x7FFF), (1, 1)] [])
    t.reg 2 = 0x8000 ∧ t.cond = condNegative ∧ t.pc = 0x3001 := by decide
/-- V3.5: DR is both sources. -/
theorem test_addReg_same : let t := after 0x1241 (start 0x3000 [(1, 0x4000)] []); t.reg 1 = 0x8000 ∧ t.cond = condNegative := by
  decide
/-- E4. -/
theorem test_addImm : let t := after 0x107D (start 0x3000 [(1, 5)] []); t.reg 0 = 2 ∧ t.cond = condPositive := by decide
/-- V3.2: the carry out is dropped. -/
theorem test_addImm_carry : let t := after 0x1421 (start 0x3000 [(0, 0xFFFF)] []); t.reg 2 = 0 ∧ t.cond = condZero := by decide
/-- E5. -/
theorem test_andReg :
    let t := after 0x5042 (start 0x3000 [(1, 0xA), (2, 6)] []); t.reg 0 = 2 ∧ t.cond = condPositive := by decide
/-- V3.7: imm5 sign-extends. -/
theorem test_andImm : let t := after 0x507F (start 0x3000 [(1, 0x8001)] []); t.reg 0 = 0x8001 ∧ t.cond = condNegative := by decide
/-- V3.9. -/
theorem test_andImm_mask : (after 0x5070 (start 0x3000 [(1, 0x1234)] [])).reg 0 = 0x1230 := by decide
/-- V3.11. -/
theorem test_not : let t := after 0x92BF (start 0x3000 [(2, 0xFFFF)] []); t.reg 1 = 0 ∧ t.cond = condZero := by decide
/-- V3.13: ignored bits zero. -/
theorem test_not_ignored : (after 0x9040 (start 0x3000 [(1, 0x8000)] [])).reg 0 = 0x7FFF := by decide

/-- E6: taken on Z, not on N. -/
theorem test_br :
    (after 0x0405 (flagged condZero (start 0x3000 [] []))).pc = 0x3006 ∧
    (after 0x0805 (flagged condZero (start 0x3000 [] []))).pc = 0x3001 := by decide
/-- V4.1, V4.3, V4.5: no flag at reset; no flag requested; the target wraps below 0. -/
theorem test_br_corners :
    (after 0x0E05 (start 0x3000 [] [])).pc = 0x3001 ∧ (after 0x0005 (flagged condPositive (start 0x3000 [] []))).pc = 0x3001 ∧
    (after 0x0FFE (flagged condZero (start 0 [] []))).pc = 0xFFFF := by decide
/-- V4.6 and V4.7. -/
theorem test_jmp :
    (after 0xC1C0 (start 0x3200 [(7, 0x3010)] [])).pc = 0x3010 ∧ (after 0xCEFF (start 0x3000 [(3, 0x1234)] [])).pc = 0x1234 := by
  decide
/-- V4.8 and V4.9. -/
theorem test_jsr :
    let t := after 0x4810 (start 0x3000 [] [])
    t.reg 7 = 0x3001 ∧ t.pc = 0x3011 ∧ (after 0x4C00 (start 0x3000 [] [])).pc = 0x2C01 := by decide
/-- V4.10. -/
theorem test_jsrr : let t := after 0x4080 (start 0x3005 [(2, 0x4000)] []); t.reg 7 = 0x3006 ∧ t.pc = 0x4000 := by decide
/-- V4.11: JSRR R7 falls through. -/
theorem test_jsrr_r7 : let t := after 0x41C0 (start 0x3000 [(7, 0x5000)] []); t.reg 7 = 0x3001 ∧ t.pc = 0x3001 := by decide

/-- V5.1 and V5.2. -/
theorem test_ld :
    let t := after 0x2202 (start 0x3000 [] [(0x3003, 0x8000)])
    t.reg 1 = 0x8000 ∧ t.cond = condNegative ∧ (after 0x2100 (start 0x3000 [(0, 9)] [])).reg 0 = 0 := by decide
/-- E7. -/
theorem test_ldi :
    let t := after 0xA001 (start 0x3000 [] [(0x3002, 0x4000), (0x4000, 0x1234)])
    t.reg 0 = 0x1234 ∧ t.cond = condPositive := by decide
/-- V5.4: the second read polls the keyboard. -/
theorem test_ldi_kbsr :
    let t := after 0xA001 (typed [some 0x78] (start 0x3000 [] [(0x3002, 0xFE00)]))
    t.reg 0 = 0x8000 ∧ t.mem.readWord 0xFE00 = 0x8000 ∧ t.mem.readWord 0xFE02 = 0x0078 ∧
    t.trace = [.kbAvail true, .kbRead 0x78] := by decide
/-- V5.6: DR is BaseR. -/
theorem test_ldr_same : (after 0x6240 (start 0x3000 [(1, 0x4000)] [(0x4000, 0x00FF)])).reg 1 = 0x00FF := by decide
/-- V5.7: the address wraps to 0. -/
theorem test_ldr_wraps : (after 0x6041 (start 0x3000 [(1, 0xFFFF)] [(0, 7)])).reg 0 = 7 := by decide
/-- V5.9. -/
theorem test_lea : let t := after 0xE000 (start 0x7FFF [] []); t.reg 0 = 0x8000 ∧ t.cond = condNegative := by decide
/-- V5.8, at the status address by hand from R123: no read, so no poll. -/
theorem test_lea_no_read :
    (after 0xE1FF (start 0x3000 [] [])).reg 0 = 0x3000 ∧ (after 0xE000 (start 0xFDFF [] [])).trace = [] := by decide

/-- V6.1. -/
theorem test_st : (after 0x3604 (start 0x3000 [(3, 0xBEEF)] [])).mem.readWord 0x3005 = 0xBEEF := by decide
/-- V6.2: a store over its own word. -/
theorem test_st_self : (after 0x31FF (start 0x3000 [(0, 0x1234)] [])).mem.readWord 0x3000 = 0x1234 := by decide
/-- V6.3. -/
theorem test_sti : (after 0xB400 (start 0x3000 [(2, 7)] [(0x3001, 0x5000)])).mem.readWord 0x5000 = 7 := by decide
/-- V6.4. -/
theorem test_str : (after 0x71A0 (start 0x3000 [(0, 0x41), (6, 0x4020)] [])).mem.readWord 0x4000 = 0x41 := by decide
/-- V6.7, both steps: a plain store to KBSR, then a status read sets only bit 15. -/
theorem test_str_kbsr :
    let t := after 0x6440 (after 0x7040 (typed [some 0x61] (start 0x3000 [(0, 0x1234), (1, 0xFE00)] [])))
    t.reg 2 = 0x9234 ∧ t.mem.readWord 0xFE00 = 0x9234 ∧ t.mem.readWord 0xFE02 = 0x0061 ∧ t.pc = 0x3002 := by decide

/-- V7.1. -/
theorem test_getc :
    let t := after 0xF020 (typed [some 0x61] (flagged condZero (start 0x3000 [] [])))
    t.reg 0 = 0x61 ∧ t.reg 7 = 0x3001 ∧ t.cond = condZero ∧ t.trace = [.kbRead 0x61] := by decide
/-- V7.2: the step holds after the R7 write, and completes when a character comes. -/
theorem test_getc_holds :
    let t := after 0xF020 (start 0x3000 [(0, 9)] [])
    t.reg 7 = 0x3001 ∧ t.reg 0 = 9 ∧ t.hold = .getc ∧ t.trace = [] ∧
    (stepped (t.provide [some 0x61])).reg 0 = 0x61 ∧ (stepped (t.provide [some 0x61])).hold = .idle := by decide
/-- V7.3. -/
theorem test_out : (after 0xF021 (start 0x3000 [(0, 0x0141)] [])).trace = [.outWrite 0x41, .outFlush] := by decide
/-- V7.6: a word with a zero low byte is no terminator. -/
theorem test_puts :
    (after 0xF022 (start 0x3000 [(0, 0x4000)] [(0x4000, 0x0100), (0x4001, 0x41)])).trace =
      [.outWrite 0, .outWrite 0x41, .outFlush] := by decide
/-- V7.7: the scan wraps. -/
theorem test_puts_wraps :
    (after 0xF022 (start 0x3000 [(0, 0xFFFF)] [(0xFFFF, 0x41), (0, 0x42)])).trace =
      [.outWrite 0x41, .outWrite 0x42, .outFlush] := by decide
/-- By hand from R147 and R42: a string that crosses the status address, where the updated KBSR word 0x8000 is read. -/
theorem test_puts_kbsr :
    (after 0xF022 (typed [some 0x61] (start 0x3000 [(0, 0xFDFF)] [(0xFDFF, 0x41)]))).trace =
      [.outWrite 0x41, .kbAvail true, .kbRead 0x61, .outWrite 0, .outFlush] := by decide
/-- V7.8 and V7.9. -/
theorem test_halt :
    (after 0xF025 (start 0x3000 [] [])).runState = .halted ∧ (after 0xF025 (start 0x3000 [] [])).reg 7 = 0x3001 ∧
    (after 0xFF25 (start 0x3000 [] [])).runState = .halted := by decide
/-- V7.10. -/
theorem test_inChar :
    let t := after 0xF023 (start 0x3000 [] [])
    t.runState = .faulted .unknownTrapVector 0xF023 0x3000 ∧ t.reg 7 = 0x3001 := by decide
/-- V7.11. -/
theorem test_putsp :
    (after 0xF024 (start 0x3000 [] [])).runState = .faulted .unknownTrapVector 0xF024 0x3000 := by decide
/-- V7.12 and V7.13. -/
theorem test_trap_unknown :
    (after 0xF000 (start 0x3000 [] [])).runState = .faulted .unknownTrapVector 0xF000 0x3000 ∧
    (after 0xF026 (start 0x3000 [] [])).runState = .faulted .unknownTrapVector 0xF026 0x3000 := by decide
/-- V8.1. -/
theorem test_rti :
    let t := after 0x8000 (start 0x3000 [] [])
    t.pc = 0x3001 ∧ t.runState = .faulted .unimplementedOpcode 0x8000 0x3000 := by decide
/-- V8.2 (E9 as resolved) and V8.3. -/
theorem test_res :
    (after 0xD000 (start 0x3000 [] [])).runState = .faulted .unimplementedOpcode 0xD000 0x3000 ∧
    (after 0xDFFF (start 0x3000 [] [])).runState = .faulted .unimplementedOpcode 0xDFFF 0x3000 := by decide
/-- V8.4. -/
theorem test_haltSentinel :
    let t := after 0 (start 0x3000 [] []); t.pc = 0x3001 ∧ t.runState = .halted ∧ t.reg 7 = 0 := by decide

/-! ### Fetch, boot and image -/

/-- V8.5: the advance wraps. -/
theorem test_fetch_wraps : (after 0x1021 (start 0xFFFF [] [])).pc = 0 := by decide
/-- V8.6 and V8.7: a fetch polls the keyboard too. -/
theorem test_fetch_polls :
    (stepped (start 0xFE00 [] [])).runState = .halted ∧ (stepped (start 0xFE00 [] [])).trace = [.kbAvail false] ∧
    (stepped (typed [some 0x41] (start 0xFE00 [] []))).runState = .faulted .unimplementedOpcode 0x8000 0xFE00 ∧
    (stepped (typed [some 0x41] (start 0xFE00 [] []))).mem.readWord 0xFE02 = 0x41 := by decide
/-- V9.1, V9.5 and V9.6. -/
theorem test_imageWords :
    imageWords [0x30, 0x00, 0x12] = [0x3000, 0x1200] ∧ imageWords [0x30, 0x00] = [0x3000] ∧ imageWords [] = [] := by decide
/-- V9.2: the run starts at 0x3000 whatever the origin. -/
theorem test_boot_elsewhere :
    let s := stateOf State.reset (boot Config.default [] (imageWords [0x40, 0x00, 0xF0, 0x25]))
    s.mem.readWord 0x4000 = 0xF025 ∧ (stepped s).pc = 0x3001 ∧ (stepped s).runState = .halted := by decide
/-- V9.3: the last word of memory. -/
theorem test_image_at_top :
    (stateOf State.reset (initMemory [0xFFFF, 0x1234] State.reset)).mem.readWord 0xFFFF = 0x1234 := by decide
/-- V9.4 and V9.6: refused, so no state comes of them. -/
theorem test_image_refused :
    initMemory [0xFFFF, 0x1234, 0x5678] State.reset = .refused .imagePastEnd ∧
    initMemory [] State.reset = .refused .imageWithoutOrigin := ⟨rfl, rfl⟩

/-! ### Witnesses: concrete states and operands that meet the hypotheses of an obligation, all of a clause together -/

/-- The clauses' widths and bits at both ends. -/
theorem witness_SignExtensionReplicatesTheSignBit :
    (0 < 1 ∧ 1 ≤ 16) ∧ (0 < 5 ∧ 5 ≤ 16) ∧ (0 < 16 ∧ 16 ≤ 16) ∧ (0 < 16) ∧ (15 < 16) := by decide
theorem witness_DecodeOfEncodeIsTheInstruction :
    (Instr.addReg 7 7 7 3).wellFormed = true ∧ (Instr.br false false true 0).wellFormed = true ∧
      (Instr.trap 15 0xFF).wellFormed = true := by decide
theorem witness_IgnoredBitsChangeNothingButTheRecord :
    State.reset.runState = .running ∧ (0x1001#16 ^^^ 0x1019#16) &&& ~~~ ignoredMask 0x1001 = 0 ∧
      (0xF000#16 ^^^ 0xFF00#16) &&& ~~~ ignoredMask 0xF000 = 0 ∧
      (∃ t, executeWord 0x1001 State.reset = .next t) ∧ (∃ t, executeWord 0xF000 State.reset = .next t) :=
  ⟨rfl, by decide, by decide, ⟨_, rfl⟩, ⟨_, rfl⟩⟩
theorem witness_ModeBitSelectsTheSecondOperand :
    kindOf (fields 0x1401).opcode = .add ∧ kindOf (fields 0x507F).opcode = .and := by decide
theorem witness_StepExecutesTheDecodedInstruction :
    State.reset.ready ∧ State.reset.pc ≠ State.reset.config.kbsrAddr ∧
      decode (fetched State.reset) = .ok .haltSentinel ∧ decode (State.reset.mem.readWord State.reset.pc) = .ok .haltSentinel :=
  ⟨⟨rfl, rfl⟩, by decide, by decide, by decide⟩
theorem witness_StepExecutes_polling :
    (typed [some 0x41] (start 0xFE00 [] [])).ready ∧ decode (fetched (typed [some 0x41] (start 0xFE00 [] []))) = .ok (.rti 0) :=
  ⟨⟨rfl, rfl⟩, by decide⟩
theorem witness_PlacedWordIsTheNextInstruction :
    (Instr.addImm 0 1 0).wellFormed = true ∧ State.reset.mem.wf ∧ State.reset.pc ≠ State.reset.config.kbsrAddr := by decide
/-- Clause 1 with HALT, clause 2 with LEA. -/
theorem witness_PcIsAdvancedBeforeDispatch :
    let s := start 0x3000 [] [(0x3000, 0xF025)]
    let u := start 0x3000 [] [(0x3000, 0xE000)]
    s.ready ∧ step s = .next (stepped s) ∧ (stepped s).runState ≠ .running ∧
    u.ready ∧ step u = .next (stepped u) ∧ decode (fetched u) = .ok (.lea 0 0) ∧ writesPc (.lea 0 0) = false :=
  ⟨⟨rfl, rfl⟩, rfl, by decide, ⟨rfl, rfl⟩, rfl, by decide, rfl⟩
theorem witness_AllZeroWordHaltsGracefully :
    (start 0xFE00 [] []).ready ∧ fetched (start 0xFE00 [] []) = 0 ∧ (0x01FF#16 ≠ 0 ∧ 0x01FF#16 &&& 0xFE00 = 0) ∧
    State.reset.ready ∧ State.reset.pc ≠ State.reset.config.kbsrAddr ∧ State.reset.mem.readWord State.reset.pc = 0 :=
  ⟨⟨rfl, rfl⟩, by decide, by decide, ⟨rfl, rfl⟩, by decide, by decide⟩
theorem witness_StoppedMachineNeverChanges :
    let s := State.reset.halt
    s.runState ≠ .running ∧ Steps s s ∧ step s = .next s := ⟨by decide, .refl _, rfl⟩
theorem witness_UpdateFlagsSetsExactlyOneFlag : flagDest (.lea 7 0) = some 7 ∧ flagDest (.ldi 0 0) = some 0 := ⟨rfl, rfl⟩
theorem witness_OnlyFlagAffectingInstructionsWriteCond :
    exec (.addImm 3 0 1) State.reset = .next (stateOf State.reset (exec (.addImm 3 0 1) State.reset)) ∧
    flagDest (.addImm 3 0 1) = some 3 ∧
    exec (.getc 0) State.reset = .next (stateOf State.reset (exec (.getc 0) State.reset)) ∧ flagDest (.getc 0) = none :=
  ⟨rfl, rfl, rfl, rfl⟩
theorem witness_RegisterWritesAreThoseOfTheTable :
    (Instr.getc 0).wellFormed = true ∧ linksR7 (.getc 0) = true ∧ writesPc (.getc 0) = false ∧ isStore (.getc 0) = false ∧
    flagDest (.getc 0) = none ∧ (∃ t, exec (.getc 0) State.reset = .next t) ∧
    (Instr.rti 0).wellFormed = true ∧ (∃ ign, Instr.rti 0 = .rti ign ∨ Instr.rti 0 = .res ign) ∧
    (∃ t, exec (.rti 0) State.reset = .next t) :=
  ⟨rfl, rfl, rfl, rfl, rfl, ⟨_, rfl⟩, rfl, ⟨0, .inl rfl⟩, ⟨_, rfl⟩⟩
/-- A store and a load, neither of which makes a status read. -/
theorem witness_OnlyStoresAndStatusReadsChangeMemory :
    let s := start 0x3000 [(3, 0xBEEF)] [(0x3000, 0x3604)]
    let u := start 0x3000 [] [(0x3000, 0x2202)]
    s.ready ∧ step s = .next (stepped s) ∧ decode (fetched s) = .ok (.st 3 4) ∧ noStatusRead s (stepped s) ∧
    u.ready ∧ step u = .next (stepped u) ∧ decode (fetched u) = .ok (.ld 1 2) ∧ isStore (.ld 1 2) = false ∧
    noStatusRead u (stepped u) :=
  ⟨⟨rfl, rfl⟩, rfl, by decide, by unfold noStatusRead; decide, ⟨rfl, rfl⟩, rfl, by decide, rfl,
    by unfold noStatusRead; decide⟩
/-- A store to KBSR itself, with no status read. -/
theorem witness_OnlyStores_at_kbsr :
    let s := start 0x3000 [(1, 0xFE00)] [(0x3000, 0x7040)]
    s.ready ∧ step s = .next (stepped s) ∧ decode (fetched s) = .ok (.str 0 1 0) ∧ noStatusRead s (stepped s) :=
  ⟨⟨rfl, rfl⟩, rfl, by decide, by unfold noStatusRead; decide⟩
/-- A GETC that goes on, and `init_memory`. -/
theorem witness_OnlyStores_other_steps :
    let s := { typed [some 0x61] State.reset with hold := .getc }
    ¬ s.ready ∧ step s = .next (stepped s) ∧ noStatusRead s (stepped s) ∧
    initMemory [0xFE00, 5] s = .next (stateOf s (initMemory [0xFE00, 5] s)) :=
  ⟨fun h => (by cases h.2), rfl, by unfold noStatusRead; decide, rfl⟩
theorem witness_StepsExtendTheTraceAndConsumeInputInOrder :
    let s := typed [some 0x61] (start 0x3000 [] [(0x3000, 0xF020)])
    Steps s (stepped s) ∧ (stepped s).kbIn = [] ∧ s.kbIn ≠ [] := ⟨.tail (.refl _) rfl, by decide, by decide⟩
theorem witness_InputReachesOnlyReadsAndGetc :
    takesNoInput (.out 0) = true ∧ exec (.out 0) State.reset = .next (stateOf State.reset (exec (.out 0) State.reset)) := ⟨rfl, rfl⟩
theorem witness_BranchTestIsTheTestOfTheThreeFlags :
    condLegal condNone ∧ condLegal condNegative ∧ condLegal condZero ∧ condLegal condPositive := by decide
/-- Both clauses of JSRR. -/
theorem witness_CallsLinkInR7AndTransfer : (0 : Reg) ≠ 7 ∧ (6 : Reg) ≠ 7 ∧ (7 : Reg) = 7 := by decide
/-- One below and one above the status address; KBDR. -/
theorem witness_LdAndLdrLoadOneWord :
    let s := start 0xFDFF [(1, 0xFE02)] []
    pcRelative s 0#9 ≠ s.config.kbsrAddr ∧ pcRelative s 2#9 ≠ s.config.kbsrAddr ∧ baseOffset s 1 0 ≠ s.config.kbsrAddr := by decide
theorem witness_LdiLoadsThroughThePointer :
    let s := start 0x3001 [] [(0x3002, 0x4000)]
    pcRelative s 1#9 ≠ s.config.kbsrAddr ∧ s.mem.readWord (pcRelative s 1#9) ≠ s.config.kbsrAddr := by decide
theorem witness_StAndStrStoreOneWord : State.reset.mem.wf := by decide
theorem witness_StiStoresThroughThePointer :
    let s := start 0x3001 [] [(0x3001, 0x3001)]
    pcRelative s 0#9 ≠ s.config.kbsrAddr ∧ (indirect s 0).2.mem.wf ∧ (indirect s 0).1 = 0x3001 := by decide
theorem witness_CanonicalMemoriesThatReadAlikeAreEqual :
    let m := (Memory.mk []).writeWord 5 0x1234
    let m' := (m.writeWord 5 0).writeWord 5 0x1234
    m.wf ∧ m'.wf ∧ (∀ a, m.readWord a = m'.readWord a) :=
  ⟨by decide, by decide, fun a => rfl⟩
/-- Each clause: away, with a character, with none at the end of the stream and with none at this moment. -/
theorem witness_ReadPathPollsTheKeyboard :
    State.reset.mem.wf ∧ State.reset.config.kbsrAddr ≠ State.reset.config.kbdrAddr ∧
    (0xFDFF#16 ≠ State.reset.config.kbsrAddr ∧ 0xFE01#16 ≠ State.reset.config.kbsrAddr) ∧
    0xFE00#16 = State.reset.config.kbsrAddr ∧ (typed [some 0x61] State.reset).kbIn = some 0x61 :: [] ∧
    (∀ c rest, State.reset.kbIn ≠ some c :: rest) ∧ (∀ c rest, (typed [none, some 0x61] State.reset).kbIn ≠ some c :: rest) :=
  ⟨by decide, by decide, by decide, by decide, rfl, nofun, nofun⟩
theorem witness_StatusReadsConsumeOneCharacterEach :
    State.reset.mem.wf ∧ State.reset.config.kbsrAddr ≠ State.reset.config.kbdrAddr ∧
    (typed [some 0x61, some 0x62] State.reset).kbIn = some 0x61 :: some 0x62 :: [] ∧
    (∀ c rest, State.reset.kbIn ≠ some c :: rest) := ⟨by decide, by decide, rfl, nofun⟩
theorem witness_MemWriteIsAPlainStoreEverywhere :
    State.reset.mem.wf ∧ State.reset.config.kbsrAddr ≠ State.reset.config.kbdrAddr ∧
    (typed [some 0x61] State.reset).kbIn = some 0x61 :: [] ∧ (∀ c rest, State.reset.kbIn ≠ some c :: rest) :=
  ⟨by decide, by decide, rfl, nofun⟩
/-- ST, STR and STI at 0x3000 store the word 0x1021 at 0x3001, the next address. -/
theorem witness_FetchSeesTheStoreBefore :
    let s := start 0x3001 [(0, 0x1021), (1, 0x3001)] [(0x3002, 0x3001)]
    s.ready ∧ s.mem.wf ∧ s.pc ≠ s.config.kbsrAddr ∧ decode (s.reg 0) = .ok (.addImm 0 0 1) ∧
    (storeSource (.st 0 0) = some 0 ∧ storeAddr s (.st 0 0) = some s.pc) ∧
    (storeSource (.str 0 1 0) = some 0 ∧ storeAddr s (.str 0 1 0) = some s.pc) ∧
    (storeSource (.sti 0 1) = some 0 ∧ storeAddr s (.sti 0 1) = some s.pc) :=
  ⟨⟨rfl, rfl⟩, by decide, by decide, by decide, by decide, by decide, by decide⟩
/-- The next address is the status address. -/
theorem witness_FetchSees_at_kbsr :
    let s := start 0xFE00 [(0, 0x1021)] []
    s.ready ∧ s.mem.wf ∧ storeAddr s (.st 0 0) = some s.pc ∧ s.pc = s.config.kbsrAddr ∧
    s.config.kbsrAddr ≠ s.config.kbdrAddr := ⟨⟨rfl, rfl⟩, by decide, by decide, by decide, by decide⟩
/-- The vectors on both sides of the implemented ones. -/
theorem witness_TrapDispatchesOnTheVector :
    (0x1F#8 ≠ 0x20 ∧ 0x1F#8 ≠ 0x21 ∧ 0x1F#8 ≠ 0x22 ∧ 0x1F#8 ≠ 0x25) ∧
    (0x24#8 ≠ 0x20 ∧ 0x24#8 ≠ 0x21 ∧ 0x24#8 ≠ 0x22 ∧ 0x24#8 ≠ 0x25) ∧
    (0x26#8 ≠ 0x20 ∧ 0x26#8 ≠ 0x21 ∧ 0x26#8 ≠ 0x22 ∧ 0x26#8 ≠ 0x25) := by decide
theorem witness_InAndPutspAreFatal :
    (Instr.inChar 0 = .inChar 0 ∨ Instr.inChar 0 = .putsp 0) ∧ (Instr.putsp 9 = .inChar 9 ∨ Instr.putsp 9 = .putsp 9) := by decide
theorem witness_RtiAndResAreFatal :
    (Instr.rti 0 = .rti 0 ∨ Instr.rti 0 = .res 0) ∧ (Instr.res 9 = .rti 9 ∨ Instr.res 9 = .res 9) := by decide
theorem witness_GetcReadsTheNextCharacter :
    nextChar (typed [none, some 0x61, some 0x62] State.reset).kbIn = some (0x61, [some 0x62]) := rfl
theorem witness_GetcHoldsUntilACharacterComes :
    (typed [none] State.reset).runState = .running ∧ (∀ m ∈ (typed [none] State.reset).kbIn, m = none) ∧
    (∀ m ∈ State.reset.kbIn, m = none) := ⟨rfl, List.forall_mem_singleton.mpr rfl, fun m h => by cases h⟩
/-- The string "HI" of E10; the empty string. -/
theorem witness_PutsWritesTheStringThenFlushes :
    let s := start 0x3000 [(0, 0x4000)] [(0x4000, 0x48), (0x4001, 0x49)]
    let str : List Word := [0x48, 0x49]
    str.length < 65536 ∧ s.hold = .idle ∧ s.mem.readWord (s.reg 0 + BitVec.ofNat 16 str.length) = 0 ∧
    (∀ k ≤ str.length, s.reg 0 + BitVec.ofNat 16 k ≠ s.config.kbsrAddr) ∧
    (∀ k, ∀ w, str[k]? = some w → s.mem.readWord (s.reg 0 + BitVec.ofNat 16 k) = w ∧ w ≠ 0) := by
  refine ⟨by decide, rfl, by decide, by decide, ?_⟩
  rintro (_ | _ | k) w h
  · cases h; decide
  · cases h; decide
  · cases h
theorem witness_PutsWrites_empty :
    ([] : List Word).length < 65536 ∧ State.reset.hold = .idle ∧
    State.reset.mem.readWord (State.reset.reg 0 + BitVec.ofNat 16 0) = 0 ∧
    (∀ k ≤ 0, State.reset.reg 0 + BitVec.ofNat 16 k ≠ State.reset.config.kbsrAddr) ∧
    (∀ (k : Nat) (w : Word), ([] : List Word)[k]? = some w → False) :=
  ⟨by decide, rfl, by decide, by decide, fun k w h => by cases h⟩

/-- A scan in progress, RUNNING. -/
theorem witness_PutsTouchesOnlyTheDevice :
    let s := { State.reset with hold := .puts 0x4000 }
    s.runState = .running ∧ s.hold = .puts 0x4000 := ⟨rfl, rfl⟩
/-- The loop of R147 over a string that crosses the status address and ends after it, for PUTS and for a step that goes on. -/
theorem witness_PutsRunsTheLoopOfR147 :
    let s := typed [some 0x61] (start 0x3000 [(0, 0xFDFF)] [(0xFDFF, 0x41)])
    let u := { State.reset with hold := .puts 0x4000 }
    s.mem.wf ∧ (∃ t, putsEnds (s.reg 0) (s.setReg 7 s.pc) t) ∧
    u.runState = .running ∧ u.hold = .puts 0x4000 ∧ u.mem.wf ∧ (∃ t, putsEnds 0x4000 u t) :=
  ⟨by decide, ⟨_, _, _, .word (by decide) (.word (by decide) (.here _ _)), by decide, rfl⟩, rfl, rfl, by decide,
    ⟨_, _, _, .here _ _, by decide, rfl⟩⟩

/-- Memory whose first `n` words are 1. -/
def ones : Nat → Memory
  | 0 => State.reset.mem
  | n + 1 => (ones n).writeWord (BitVec.ofNat 16 n) 1

theorem ones_wf (n : Nat) : (ones n).wf := by
  induction n with
  | zero => exact State.reset_mem_wf
  | succ n ih => exact Memory.writeWord_wf _ _ _ ih

theorem ones_readWord (n : Nat) (hn : n ≤ 65536) (a : Word) (ha : a.toNat < n) : (ones n).readWord a = 1 := by
  induction n with
  | zero => exact absurd ha (Nat.not_lt_zero _)
  | succ n ih =>
    by_cases h : a = BitVec.ofNat 16 n
    · rw [h]; exact Memory.readWord_writeWord_same _ _ _ (ones_wf n)
    · refine (Memory.readWord_writeWord_ne _ _ h).trans (ih (by omega) ?_)
      refine Nat.lt_of_le_of_ne (Nat.le_of_lt_succ ha) fun e => h ?_
      rw [← e, BitVec.ofNat_toNat, BitVec.setWidth_eq]

/-- A status read with no input leaves a memory of ones as it is. -/
theorem ones_memRead {s : State} (hw : s.mem.wf) (hi : s.kbIn = []) (h : ∀ a, s.mem.readWord a = 1) (a : Word) :
    (s.memRead a).1 = 1 ∧ (s.memRead a).2.mem.wf ∧ (s.memRead a).2.kbIn = [] ∧ ∀ b, (s.memRead a).2.mem.readWord b = 1 := by
  by_cases e : a = s.config.kbsrAddr
  · have key : ∀ b, (s.mem.writeWord s.config.kbsrAddr 1).readWord b = 1 := fun b => by
      by_cases eb : b = s.config.kbsrAddr
      · rw [eb]; exact Memory.readWord_writeWord_same _ _ _ hw
      · exact (Memory.readWord_writeWord_ne _ _ eb).trans (h b)
    have hm : (s.memRead a).2.mem = s.mem.writeWord s.config.kbsrAddr 1 := by
      simp only [State.memRead, e, if_true, State.pollKeyboard, State.kbAvail, hi, State.clearStatus, State.memWrite,
        State.record, h]
      rfl
    refine ⟨?_, (s.memRead_frame a).1.memWf hw, ?_, fun b => by rw [hm]; exact key b⟩
    · rw [State.memRead_fst, hm]; exact key a
    · simp only [State.memRead, e, if_true, State.pollKeyboard, State.kbAvail, hi, State.clearStatus, State.memWrite,
        State.record]
  · rw [State.memRead_ne e]; exact ⟨h a, hw, hi, h⟩

theorem ones_putsScan (n : Nat) (a : Word) (s : State) (hw : s.mem.wf) (hi : s.kbIn = [])
    (h : ∀ a, s.mem.readWord a = 1) : (putsScan n a s).hold ≠ .idle := by
  induction n generalizing a s with
  | zero => exact nofun
  | succ n ih =>
    obtain ⟨h1, h2, h3, h4⟩ := ones_memRead hw hi h a
    rw [putsScan_succ, h1]
    exact ih _ _ h2 h3 h4

/-- A memory with no zero word. -/
theorem witness_AnUnfinishedPutsNeverFinishesByItself :
    ∃ s : State, s.mem.wf ∧ (putsService 0 s).hold ≠ .idle :=
  ⟨{ State.reset with mem := ones 65536 }, ones_wf _,
    ones_putsScan _ _ _ (ones_wf _) rfl fun a => ones_readWord _ (Nat.le_refl _) a a.isLt⟩

theorem witness_FatalErrorsAreExactlyTheListedWords :
    let s := start 0x3000 [] [(0x3000, 0xF026)]
    s.ready ∧ step s = .next (stepped s) ∧ (stepped s).runState = .faulted .unknownTrapVector 0xF026 0x3000 :=
  ⟨⟨rfl, rfl⟩, rfl, by decide⟩
theorem witness_FatalErrors_opcode :
    let s := start 0x3000 [] [(0x3000, 0x8000)]
    s.ready ∧ step s = .next (stepped s) ∧ (stepped s).runState = .faulted .unimplementedOpcode 0x8000 0x3000 :=
  ⟨⟨rfl, rfl⟩, rfl, by decide⟩
theorem witness_GracefulHaltsAreExactlyTheListedWords :
    let s := start 0x3000 [] [(0x3000, 0xF025)]
    s.ready ∧ step s = .next (stepped s) ∧ isTrap (fetched s) 0x25 := ⟨⟨rfl, rfl⟩, rfl, by decide, by decide⟩
theorem witness_StatusOutputsReportTheFatalError :
    (¬ State.reset.endedFatal) ∧ (State.reset.raiseFatal .unknownTrapVector 0xF026).endedFatal ∧
    Steps (State.reset.raiseFatal .unknownTrapVector 0xF026) (State.reset.raiseFatal .unknownTrapVector 0xF026) :=
  ⟨fun ⟨_, _, _, h⟩ => (by cases h), ⟨_, _, _, rfl⟩, .tail (.refl _) rfl⟩
/-- The conclusion's right side: a HALTED state, whose only run stays where it is. -/
theorem witness_RunIsSafeExactlyWhenNoFatalWordIsFetched :
    ¬ State.reset.halt.endedFatal ∧ ¬ State.reset.halt.ready ∧ Steps State.reset.halt State.reset.halt :=
  ⟨fun ⟨_, _, _, h⟩ => (by cases h), fun h => (by cases h.1), .refl _⟩
/-- A state that holds in GETC, with flags set and input to come. -/
theorem witness_EveryStepKeepsTheInvariant :
    let s := { typed [some 0x61] (flagged condNegative (start 0x4000 [(0, 9)] [(0x4000, 0x1021)])) with hold := .getc }
    s.Inv ∧ step s = .next (stepped s) :=
  ⟨⟨by decide, by decide, fun _ => rfl, nofun⟩, rfl⟩
/-- The last word that fits, and one word more. -/
theorem witness_InitMemoryCopiesTheImageOrRefuses :
    State.reset.mem.wf ∧ (0xFFFF#16).toNat + [0x1234#16].length ≤ 65536 ∧
    65536 < (0xFFFF#16).toNat + [0x1234#16, 0x5678#16].length ∧
    ((0xFFFE#16).toNat < (0xFFFF#16).toNat) ∧ ((0x3000#16).toNat + [0x1#16].length ≤ (0x3001#16).toNat) := by decide
/-- A whole pair and a last byte alone. -/
theorem witness_ImageWordsAreBigEndianPairs :
    2 * 0 < [(0x30 : Byte), 0x00, 0x12].length ∧ 2 * 1 < [(0x30 : Byte), 0x00, 0x12].length := by decide
/-- An image at 0x3000, one just after it, and one that ends just before it. -/
theorem witness_BootStartsAtTheFixedEntryPoint :
    (∃ s, boot Config.default [] [0x3000, 0xF025] = .next s) ∧ (∃ s, boot Config.default [] [0x3001, 0xF025] = .next s) ∧
    (∃ s, boot Config.default [] [0x2FFF, 0xF025] = .next s) ∧ Config.default.kbsrAddr ≠ 0x3000 ∧
    ((0x3000 : Nat) < (0x3001#16).toNat) ∧ ((0x2FFF#16).toNat + [0xF025#16].length ≤ 0x3000) :=
  ⟨⟨_, rfl⟩, ⟨_, rfl⟩, ⟨_, rfl⟩, by decide, by decide, by decide⟩
theorem witness_ResetAbandonsWhateverWasInProgress :
    let s := { start 0x4000 [(0, 9)] [(0x3000, 0xF025)] with hold := .getc }
    let s' := State.reset.halt
    s.config = s'.config ∧ s.kbIn = s'.kbIn ∧ ∃ t, resetAgain [0x3000, 0x1021] s = .next t := ⟨rfl, rfl, ⟨_, rfl⟩⟩

end Sys2Proof.Tests
end

section
/-! Sign and zero extension (00_scope.md R9): the algorithm's two branches as numbers, and the bits of the result. -/

namespace Sys2Proof.Machine

/-- The negative branch of R9, with the shifted ones cut to 16 bits as a number. -/
theorem sext_of_signBit_set {n : Nat} (v : BitVec n) (hsign : v.getLsbD (n - 1) = true) :
    sext v = BitVec.ofNat 16 (v.toNat ||| ((0xFFFF <<< (n - 1)) &&& 0xFFFF)) := by
  have hcut : (0xFFFF <<< (n - 1)) &&& 0xFFFF = (0xFFFF <<< (n - 1)) % 2 ^ 16 :=
    Nat.and_two_pow_sub_one_eq_mod _ 16
  apply BitVec.eq_of_toNat_eq
  simp [sext, hsign, hcut]

theorem sext_of_signBit_clear {n : Nat} (v : BitVec n) (hsign : v.getLsbD (n - 1) = false) :
    sext v = v.setWidth 16 := by
  simp [sext, hsign]

theorem getLsbD_sext {n : Nat} (v : BitVec n) (h0 : 0 < n) (h : n ≤ 16) {k : Nat} (hk : k < 16) :
    (sext v).getLsbD k = if k < n then v.getLsbD k else v.getLsbD (n - 1) := by
  rw [sext_eq_signExtend v h0 h, BitVec.getLsbD_signExtend, BitVec.msb_eq_getLsbD_last]
  simp [hk]

theorem toInt_sext {n : Nat} (v : BitVec n) (h0 : 0 < n) (h : n ≤ 16) : (sext v).toInt = v.toInt := by
  rw [sext_eq_signExtend v h0 h, BitVec.toInt_signExtend_of_le h]

theorem getLsbD_zext8 (c : Byte) {k : Nat} (hk : k < 16) :
    (zext8 c).getLsbD k = (decide (k < 8) && c.getLsbD k) := by
  by_cases hlow : k < 8
  · simp [zext8, hk, hlow]
  · simp [zext8, hlow, BitVec.getLsbD_of_ge c k (Nat.le_of_not_lt hlow)]

/-- Settles O1: the algorithm's two branches, then the bits and the signed value of the library's sign extension, which
`sext` is. -/
theorem signExtensionReplicatesTheSignBit : Obligations.SignExtensionReplicatesTheSignBit := by
  refine ⟨fun n v h0 h => ⟨sext_of_signBit_set v, fun hsign => ?_, fun k hk => getLsbD_sext v h0 h hk,
    toInt_sext v h0 h⟩, fun c k hk => getLsbD_zext8 c hk⟩
  rw [sext_of_signBit_clear v hsign, BitVec.toNat_setWidth_of_le h]

end Sys2Proof.Machine
end

section
/-! What an instruction and a step can do (10_state.md R21, 40_cycle.md R90, R93), said once: the cases that every proof
about all instructions or all steps goes through. -/

namespace Sys2Proof.Machine

open Sys2Proof.Claims

/-! ### Decoding, and the words of a fatal error -/

/-- No word is an undefined opcode (30_encoding.md R74; 90_conflicts.md C2). -/
theorem exists_decode (w : Word) : ∃ i, decode w = .ok i := by
  rcases hd : decode w with e | i
  · simp only [decode] at hd
    split at hd
    · cases hd
    · split at hd
      case h_17 hundefined => exact absurd hundefined (kindOf_ne_undefined _)
      all_goals cases hd
  · exact ⟨i, rfl⟩

/-- The opcode is the first field of every format (30_encoding.md R69). -/
theorem opcode_asWord (op : BitVec 4) (rest : BitVec 12) : (fields (asWord (op ++ rest))).opcode = op :=
  BitVec.extractLsb'_append_eq_left

theorem opcode_encodeTrap (ign : BitVec 4) (vec : BitVec 8) : (fields (encodeTrap ign vec)).opcode = 15 := by
  have hassoc : encodeTrap ign vec = asWord (0b1111#4 ++ (ign ++ vec)) := BitVec.append_assoc
  exact hassoc ▸ opcode_asWord 0b1111#4 (ign ++ vec)

theorem trapvect8_encodeTrap (ign : BitVec 4) (vec : BitVec 8) : (fields (encodeTrap ign vec)).trapvect8 = vec :=
  BitVec.extractLsb'_append_eq_right

theorem faultWord_encode_rti (ign : BitVec 12) : faultWord .unimplementedOpcode (encode (.rti ign)) :=
  .inl (opcode_asWord 0b1000#4 ign)

theorem faultWord_encode_res (ign : BitVec 12) : faultWord .unimplementedOpcode (encode (.res ign)) :=
  .inr (opcode_asWord 0b1101#4 ign)

theorem faultWord_encodeTrap (ign : BitVec 4) {vec : BitVec 8} (h0 : vec ≠ 0x20) (h1 : vec ≠ 0x21) (h2 : vec ≠ 0x22)
    (h5 : vec ≠ 0x25) : faultWord .unknownTrapVector (encodeTrap ign vec) := by
  rw [faultWord, trapvect8_encodeTrap]
  exact ⟨opcode_encodeTrap ign vec, h0, h1, h2, h5⟩

/-! ### What a trap service can do -/

theorem State.setReg_reg_self (s : State) (r : Reg) : s.setReg r (s.reg r) = s := by
  simp [State.setReg, State.reg]

/-- The outcomes of a trap service entered in state `e` (45_trap.md R144): it runs on the device, writing no register but
R0; it halts; or it is fatal. -/
inductive Served (e : State) : State → Prop where
  | runs {t : State} (v : Word) (frame : DeviceFrame (e.setReg 0 v) t) : Served e t
  | halts : Served e e.halt
  | fatal {w : Word} (hw : faultWord .unknownTrapVector w) : Served e (e.raiseFatal .unknownTrapVector w)

theorem Served.of_frame {e t : State} (frame : DeviceFrame e t) : Served e t :=
  .runs (e.reg 0) ((e.setReg_reg_self 0).symm ▸ frame)

theorem getcService_frame (s : State) : ∃ v, DeviceFrame (s.setReg 0 v) (getcService s) := by
  rcases getcService_cases s with ⟨c, rest, hnext, hget⟩ | ⟨-, hget⟩
  · rw [hget]
    exact ⟨zext8 c, rfl, rfl, rfl, rfl, rfl, fun _ _ _ => rfl, id, List.prefix_append _ _, (nextChar_suffix hnext).1⟩
  · rw [hget]
    exact ⟨s.reg 0, (s.setReg_reg_self 0).symm ▸ .setHold s .getc⟩

theorem outService_frame (s : State) : DeviceFrame s (outService s) :=
  (DeviceFrame.record _ _).trans (.record _ .outFlush)

theorem served_getcService (e : State) : Served e (getcService e) :=
  have ⟨v, frame⟩ := getcService_frame e
  .runs v frame

theorem served_trapService (ign : BitVec 4) (vec : BitVec 8) (e : State) : Served e (trapService ign vec e) := by
  by_cases h0 : vec = 0x20
  · exact h0 ▸ served_getcService e
  by_cases h1 : vec = 0x21
  · exact h1 ▸ .of_frame (outService_frame e)
  by_cases h2 : vec = 0x22
  · exact h2 ▸ .of_frame (putsService_frame (e.reg 0) e)
  by_cases h5 : vec = 0x25
  · exact h5 ▸ .halts
  rw [trapService_unknown ign vec e h0 h1 h2 h5]
  exact .fatal (faultWord_encodeTrap ign h0 h1 h2 h5)

theorem Served.reg {e t : State} (h : Served e t) {r : Reg} (hr : r ≠ 0) : t.reg r = e.reg r := by
  cases h with
  | runs v frame => rw [frame.reg, e.reg_setReg_ne v hr]
  | halts => rfl
  | fatal => rfl

theorem Served.pc {e t : State} (h : Served e t) : t.pc = e.pc := by
  cases h with
  | runs v frame => exact frame.pc
  | halts => rfl
  | fatal => rfl

theorem Served.cond {e t : State} (h : Served e t) : t.cond = e.cond := by
  cases h with
  | runs v frame => exact frame.cond
  | halts => rfl
  | fatal => rfl

theorem Served.word {e t : State} (h : Served e t) {a : Word} (hs : a ≠ e.config.kbsrAddr) (hd : a ≠ e.config.kbdrAddr) :
    t.mem.readWord a = e.mem.readWord a := by
  cases h with
  | runs v frame => exact frame.word a hs hd
  | halts => rfl
  | fatal => rfl

/-! ### What an instruction can do -/

/-- The outcomes of an instruction executed in state `s`, by the table of 10_state.md R21. -/
inductive Effect (i : Instr) (s : State) : State → Prop where
  /-- A flag-affecting instruction (R28), after the reads it makes. -/
  | result {dr : Reg} {u : State} (r : Word) (hflag : flagDest i = some dr) (hlink : linksR7 i = false)
      (frame : DeviceFrame s u) : Effect i s (u.writeResult dr r)
  /-- A store, after the read of its pointer. -/
  | store {u : State} (a v : Word) (hflag : flagDest i = none) (hlink : linksR7 i = false) (hstore : isStore i = true)
      (frame : DeviceFrame s u) : Effect i s (u.memWrite a v)
  /-- BR and JMP; a BR that is not taken loads pc with itself. -/
  | jump (v : Word) (hflag : flagDest i = none) (hlink : linksR7 i = false) (hpc : writesPc i = true) :
      Effect i s (s.setPc v)
  /-- JSR and JSRR. -/
  | call (v : Word) (hflag : flagDest i = none) (hlink : linksR7 i = true) (hpc : writesPc i = true) :
      Effect i s ((s.setReg 7 s.pc).setPc v)
  /-- The halt sentinel. -/
  | sentinel (hflag : flagDest i = none) (hlink : linksR7 i = false) : Effect i s s.halt
  /-- RTI and RES. -/
  | fatal {w : Word} (hflag : flagDest i = none) (hlink : linksR7 i = false) (hw : faultWord .unimplementedOpcode w) :
      Effect i s (s.raiseFatal .unimplementedOpcode w)
  /-- Every TRAP row; R0 is written only where the table says so. -/
  | trap {t : State} (hflag : flagDest i = none) (hlink : linksR7 i = true)
      (hr0 : i.wellFormed = true → 0 ∉ regsWritten i → t.reg 0 = s.trapEntry.reg 0)
      (served : Served s.trapEntry t) : Effect i s t

/-- Every instruction has one of these effects, in every state. -/
theorem exec_effect (i : Instr) (s : State) : ∃ t, exec i s = .next t ∧ Effect i s t := by
  cases i with
  | haltSentinel => exact ⟨_, exec_haltSentinel s, .sentinel rfl rfl⟩
  | br n z p off =>
    refine ⟨_, exec_br s n z p off, ?_⟩
    split
    · exact .jump _ rfl rfl rfl
    · exact .jump s.pc rfl rfl rfl
  | addReg dr sr1 sr2 ign => exact ⟨_, exec_addReg s dr sr1 sr2 ign, .result _ rfl rfl (.refl s)⟩
  | addImm dr sr1 imm => exact ⟨_, exec_addImm s dr sr1 imm, .result _ rfl rfl (.refl s)⟩
  | andReg dr sr1 sr2 ign => exact ⟨_, exec_andReg s dr sr1 sr2 ign, .result _ rfl rfl (.refl s)⟩
  | andImm dr sr1 imm => exact ⟨_, exec_andImm s dr sr1 imm, .result _ rfl rfl (.refl s)⟩
  | not dr sr ign => exact ⟨_, exec_not s dr sr ign, .result _ rfl rfl (.refl s)⟩
  | lea dr off => exact ⟨_, exec_lea s dr off, .result _ rfl rfl (.refl s)⟩
  | ld dr off => exact ⟨_, exec_ld s dr off, .result _ rfl rfl (s.memRead_frame _).1⟩
  | ldr dr base off => exact ⟨_, exec_ldr s dr base off, .result _ rfl rfl (s.memRead_frame _).1⟩
  | ldi dr off =>
    exact ⟨_, exec_ldi s dr off, .result _ rfl rfl ((indirect_frame s off).1.trans (State.memRead_frame _ _).1)⟩
  | st sr off => exact ⟨_, exec_st s sr off, .store _ _ rfl rfl rfl (.refl s)⟩
  | str sr base off => exact ⟨_, exec_str s sr base off, .store _ _ rfl rfl rfl (.refl s)⟩
  | sti sr off => exact ⟨_, exec_sti s sr off, .store _ _ rfl rfl rfl (indirect_frame s off).1⟩
  | jmp base ignHi ignLo => exact ⟨_, exec_jmp s base ignHi ignLo, .jump _ rfl rfl rfl⟩
  | jsr off => exact ⟨_, exec_jsr s off, .call _ rfl rfl rfl⟩
  | jsrr base ignHi ignLo => exact ⟨_, exec_jsrr s base ignHi ignLo, .call _ rfl rfl rfl⟩
  | rti ign => exact ⟨_, exec_rti s ign, .fatal rfl rfl (faultWord_encode_rti ign)⟩
  | res ign => exact ⟨_, exec_res s ign, .fatal rfl rfl (faultWord_encode_res ign)⟩
  | trap ign vec =>
    refine ⟨_, exec_trap s ign vec, .trap rfl rfl (fun hwf _ => ?_) (served_trapService ign vec _)⟩
    rw [trapService_of_wellFormed hwf]
    rfl
  | getc ign =>
    exact ⟨_, exec_getc s ign, .trap rfl rfl (fun _ h0 => absurd (by simp [regsWritten]) h0) (served_getcService _)⟩
  | out ign => exact ⟨_, exec_out s ign, .trap rfl rfl (fun _ _ => rfl) (.of_frame (outService_frame _))⟩
  | puts ign =>
    have frame := putsService_frame (s.trapEntry.reg 0) s.trapEntry
    exact ⟨_, exec_puts s ign, .trap rfl rfl (fun _ _ => frame.reg 0) (.of_frame frame)⟩
  | inChar ign =>
    have hw := faultWord_encodeTrap ign (vec := 0x23) (by decide) (by decide) (by decide) (by decide)
    exact ⟨_, exec_inChar s ign, .trap rfl rfl (fun _ _ => rfl) (.fatal hw)⟩
  | putsp ign =>
    have hw := faultWord_encodeTrap ign (vec := 0x24) (by decide) (by decide) (by decide) (by decide)
    exact ⟨_, exec_putsp s ign, .trap rfl rfl (fun _ _ => rfl) (.fatal hw)⟩
  | halt ign => exact ⟨_, exec_halt s ign, .trap rfl rfl (fun _ _ => rfl) .halts⟩

theorem effect_of_exec {i : Instr} {s t : State} (h : exec i s = .next t) : Effect i s t := by
  obtain ⟨u, hu, heffect⟩ := exec_effect i s
  obtain rfl : u = t := Host.Outcome.next.inj (hu.symm.trans h)
  exact heffect

/-! ### What a step can do -/

/-- A step stays in a stopped state, goes on with a GETC or a PUTS, or executes the instruction it fetches. -/
theorem step_cases {s t : State} (h : step s = .next t) :
    (s.runState ≠ .running ∧ t = s) ∨
    (s.runState = .running ∧ s.hold = .getc ∧ t = getcService s) ∨
    (∃ a, s.runState = .running ∧ s.hold = .puts a ∧ t = putsService a s) ∨
    (s.ready ∧ ∃ i, decode (fetchAdvance s).1 = .ok i ∧ exec i (fetchAdvance s).2 = .next t) := by
  by_cases hrun : s.runState = .running
  · cases hhold : s.hold with
    | idle =>
      obtain ⟨i, hi⟩ := exists_decode (fetchAdvance s).1
      rw [step_ready ⟨hrun, hhold⟩, executeWord_ok hi] at h
      exact .inr (.inr (.inr ⟨⟨hrun, hhold⟩, i, hi, h⟩))
    | getc =>
      rw [step_getc hrun hhold] at h
      exact .inr (.inl ⟨hrun, rfl, (Host.Outcome.next.inj h).symm⟩)
    | puts a =>
      rw [step_puts hrun hhold] at h
      exact .inr (.inr (.inl ⟨a, hrun, rfl, (Host.Outcome.next.inj h).symm⟩))
  · rw [step_stopped hrun] at h
    exact .inl ⟨hrun, (Host.Outcome.next.inj h).symm⟩

end Sys2Proof.Machine
end

section
/-! The invariant of the machine over every step (10_state.md R26, 40_cycle.md R90, 60_exceptions.md R160, R162). -/

namespace Sys2Proof.Machine

/-! ### The invariant in each run_state -/

theorem State.Inv.of_running {s : State} (hmem : s.mem.wf) (hcond : condLegal s.cond) (hrun : s.runState = .running) :
    s.Inv :=
  ⟨hmem, hcond, fun _ => hrun, fun _ _ _ hfault => nomatch hrun.symm.trans hfault⟩

/-- Halting with no step in progress keeps the invariant (40_cycle.md R96). -/
theorem State.Inv.halt {s : State} (inv : s.Inv) (hidle : s.hold = .idle) : s.halt.Inv :=
  ⟨inv.memWf, inv.cond, fun hhold => absurd hidle hhold, fun _ _ _ hfault => nomatch hfault⟩

/-- A fatal error records the address before pc, so pc is one past it (60_exceptions.md R160). -/
theorem State.Inv.raiseFatal {s : State} {kind : FaultKind} {w : Word} (inv : s.Inv) (hidle : s.hold = .idle)
    (hw : faultWord kind w) (h7 : kind = .unknownTrapVector → s.reg 7 = s.pc) : (s.raiseFatal kind w).Inv := by
  have hpc : s.pc = s.pc - 1 + 1 := (BitVec.sub_add_cancel s.pc 1).symm
  refine ⟨inv.memWf, inv.cond, fun hhold => absurd hidle hhold, fun kind' instr addr hfault => ?_⟩
  obtain ⟨rfl, rfl, rfl⟩ := RunState.faulted.inj hfault
  exact ⟨hw, hpc, fun hkind => (h7 hkind).trans hpc⟩

/-- Reads and device calls of a RUNNING machine keep the invariant. -/
theorem DeviceFrame.inv {s t : State} (frame : DeviceFrame s t) (hrun : s.runState = .running) (inv : s.Inv) : t.Inv :=
  .of_running (frame.memWf inv.memWf) (frame.cond ▸ inv.cond) (frame.runState.trans hrun)

theorem State.Inv.setReg {s : State} (inv : s.Inv) (hrun : s.runState = .running) (r : Reg) (v : Word) :
    (s.setReg r v).Inv :=
  .of_running inv.memWf inv.cond hrun

/-! ### Services, instructions, steps -/

theorem Served.inv {e t : State} (h : Served e t) (hready : e.ready) (h7 : e.reg 7 = e.pc) (inv : e.Inv) : t.Inv := by
  obtain ⟨hrun, hidle⟩ := hready
  cases h with
  | runs v frame => exact frame.inv hrun (inv.setReg hrun 0 v)
  | halts => exact inv.halt hidle
  | fatal hw => exact inv.raiseFatal hidle hw fun _ => h7

theorem Effect.inv {i : Instr} {s t : State} (h : Effect i s t) (hready : s.ready) (inv : s.Inv) : t.Inv := by
  obtain ⟨hrun, hidle⟩ := hready
  cases h with
  | result r _ _ frame => exact .of_running (frame.memWf inv.memWf) (flagOf_legal r) (frame.runState.trans hrun)
  | store a v _ _ _ frame =>
    exact .of_running (Memory.writeWord_wf _ a v (frame.memWf inv.memWf)) (frame.inv hrun inv).cond
      (frame.runState.trans hrun)
  | jump | call => exact .of_running inv.memWf inv.cond hrun
  | sentinel => exact inv.halt hidle
  | fatal _ _ hw => exact inv.raiseFatal hidle hw nofun
  | trap _ _ _ served => exact served.inv ⟨hrun, hidle⟩ (s.reg_setReg_same 7 s.pc) (inv.setReg hrun 7 s.pc)

/-- The fetch keeps the invariant and leaves the machine ready (40_cycle.md R91, R92). -/
theorem fetchAdvance_inv {s : State} (hready : s.ready) (inv : s.Inv) :
    (fetchAdvance s).2.ready ∧ (fetchAdvance s).2.Inv := by
  have hread := (s.memRead_frame s.pc).1.inv hready.1 inv
  have hrun := (fetchAdvance_runState s).trans hready.1
  exact ⟨⟨hrun, (fetchAdvance_hold s).trans hready.2⟩, .of_running hread.memWf hread.cond hrun⟩

/-- Settles O54: by the cases of a step; a step that goes on is a device frame, a fetched instruction has one of the
effects. -/
theorem everyStepKeepsTheInvariant : Obligations.EveryStepKeepsTheInvariant := by
  intro s t inv hstep
  rcases step_cases hstep with ⟨-, rfl⟩ | ⟨hrun, -, rfl⟩ | ⟨a, hrun, -, rfl⟩ | ⟨hready, i, -, hexec⟩
  · exact inv
  · obtain ⟨v, frame⟩ := getcService_frame s
    exact frame.inv hrun (inv.setReg hrun 0 v)
  · exact (putsService_frame a s).inv hrun inv
  · obtain ⟨hready', inv'⟩ := fetchAdvance_inv hready inv
    exact (effect_of_exec hexec).inv hready' inv'

end Sys2Proof.Machine
end

section
/-! Runs: HALTED and FAULTED are terminal (10_state.md R30), and the environment's fields along a run (R32, R33). -/

namespace Sys2Proof.Machine

/-- Settles O13: by induction on the number of steps. -/
theorem stoppedMachineNeverChanges : Obligations.StoppedMachineNeverChanges := by
  intro s t hstopped hsteps
  induction hsteps with
  | refl => rfl
  | tail _ hstep ih =>
    subst ih
    rw [step_stopped hstopped] at hstep
    exact (Host.Outcome.next.inj hstep).symm

/-- From `s` to `t` the trace only grows, input is only consumed, and the configuration stays (10_state.md R32, R33). -/
def environmentAdvances (s t : State) : Prop := s.trace <+: t.trace ∧ t.kbIn <:+ s.kbIn ∧ t.config = s.config

theorem environmentAdvances.refl (s : State) : environmentAdvances s s :=
  ⟨List.prefix_refl _, List.suffix_refl _, rfl⟩

theorem environmentAdvances.trans {s t u : State} (h : environmentAdvances s t) (k : environmentAdvances t u) :
    environmentAdvances s u := by
  obtain ⟨htrace, hkbIn, hconfig⟩ := h
  obtain ⟨ktrace, kkbIn, kconfig⟩ := k
  exact ⟨htrace.trans ktrace, kkbIn.trans hkbIn, kconfig.trans hconfig⟩

theorem DeviceFrame.environment {s t : State} (frame : DeviceFrame s t) : environmentAdvances s t :=
  ⟨frame.trace, frame.kbIn, frame.config⟩

theorem Served.environment {e t : State} (h : Served e t) : environmentAdvances e t := by
  cases h with
  | runs v frame => exact frame.environment
  | halts | fatal => exact .refl e

theorem Effect.environment {i : Instr} {s t : State} (h : Effect i s t) : environmentAdvances s t := by
  cases h with
  | result r _ _ frame => exact frame.environment
  | store a v _ _ _ frame => exact frame.environment
  | jump | call | sentinel | fatal => exact .refl s
  | trap _ _ _ served => exact served.environment

theorem step_environment {s t : State} (h : step s = .next t) : environmentAdvances s t := by
  rcases step_cases h with ⟨-, rfl⟩ | ⟨-, -, rfl⟩ | ⟨a, -, -, rfl⟩ | ⟨-, i, -, hexec⟩
  · exact .refl t
  · obtain ⟨v, frame⟩ := getcService_frame s
    exact frame.environment
  · exact (putsService_frame a s).environment
  · have hfetch : environmentAdvances s (fetchAdvance s).2 := (s.memRead_frame s.pc).1.environment
    exact hfetch.trans (effect_of_exec hexec).environment

/-- Settles O22: by induction on the number of steps. -/
theorem stepsExtendTheTraceAndConsumeInputInOrder : Obligations.StepsExtendTheTraceAndConsumeInputInOrder := by
  intro s t hsteps
  induction hsteps with
  | refl => exact environmentAdvances.refl s
  | tail _ hstep ih => exact environmentAdvances.trans ih (step_environment hstep)

end Sys2Proof.Machine
end

section
/-! Who writes the flags, the registers and pc (10_state.md R21, R27, R28), and who takes input (R32). -/

namespace Sys2Proof.Machine

open Sys2Proof.Claims

/-! ### The flags -/

theorem flagOf_cases (r : Word) : flagOf r = condNegative ∨ flagOf r = condZero ∨ flagOf r = condPositive := by
  unfold flagOf
  split
  · exact .inl rfl
  · split
    · exact .inr (.inl rfl)
    · exact .inr (.inr rfl)

theorem toInt_pos_iff (r : Word) : 0 < r.toInt ↔ r ≠ 0 ∧ r.getLsbD 15 = false := by
  have hzero : r = 0 ↔ r.toInt = 0 := BitVec.toInt_inj.symm
  rw [Ne, hzero, ← Bool.not_eq_true, ← toInt_neg_iff_bit15]
  omega

theorem flagsOfSigned_of_cond {t : State} {r : Word} (h : t.cond = flagOf r) : flagsOfSigned r t := by
  rw [flagsOfSigned, h, toInt_neg_iff_bit15, toInt_pos_iff]
  exact ⟨flagOf_eq_negative_iff r, flagOf_eq_zero_iff r, flagOf_eq_positive_iff r⟩

theorem Effect.cond_of_flagDest {i : Instr} {s t : State} {dr : Reg} (h : Effect i s t) (hdr : flagDest i = some dr) :
    t.cond = flagOf (t.reg dr) := by
  cases h with
  | @result dr' u r hflag _ _ =>
    obtain rfl : dr' = dr := Option.some.inj (hflag.symm.trans hdr)
    exact congrArg flagOf (u.reg_setReg_same dr' r).symm
  | store _ _ hflag | jump _ hflag | call _ hflag | sentinel hflag | fatal hflag | trap hflag =>
    exact nomatch hflag.symm.trans hdr

theorem Effect.cond_of_not_flagDest {i : Instr} {s t : State} (h : Effect i s t) (hnone : flagDest i = none) :
    t.cond = s.cond := by
  cases h with
  | result r hflag => exact nomatch hflag.symm.trans hnone
  | store _ _ _ _ _ frame => exact frame.cond
  | jump | call | sentinel | fatal => rfl
  | trap _ _ _ served => exact served.cond

/-- Settles O15: by the flag of a result, which the effect of a flag-affecting instruction leaves in `cond`. -/
theorem updateFlagsSetsExactlyOneFlag : Obligations.UpdateFlagsSetsExactlyOneFlag := by
  refine ⟨fun s r => ⟨flagOf_eq_negative_iff r, flagOf_eq_zero_iff r, flagOf_eq_positive_iff r, flagOf_cases r,
    by decide, by decide, by decide, rfl⟩, fun i dr s hdr => ?_⟩
  obtain ⟨t, hexec, heffect⟩ := exec_effect i s
  refine ⟨t, hexec, ?_⟩
  rw [heffect.cond_of_flagDest hdr]
  exact flagOf_cases _

/-- Settles O19: by the effect of each instruction on `cond`. -/
theorem onlyFlagAffectingInstructionsWriteCond : Obligations.OnlyFlagAffectingInstructionsWriteCond := by
  intro i s t hexec
  have heffect := effect_of_exec hexec
  exact ⟨fun _ hdr => flagsOfSigned_of_cond (heffect.cond_of_flagDest hdr), heffect.cond_of_not_flagDest⟩

/-! ### Registers, pc and memory -/

theorem mem_regsWritten_of_flagDest {i : Instr} {dr : Reg} (h : flagDest i = some dr) : dr ∈ regsWritten i := by
  simp [regsWritten, h]

theorem seven_mem_regsWritten {i : Instr} (h : linksR7 i = true) : 7 ∈ regsWritten i := by
  simp [regsWritten, h]

/-- A register outside the table's row is not the one written. -/
theorem ne_of_not_mem_regsWritten {i : Instr} {q r : Reg} (hq : q ∈ regsWritten i) (hr : r ∉ regsWritten i) : r ≠ q :=
  fun h => hr (h ▸ hq)

theorem Effect.regs {i : Instr} {s t : State} (h : Effect i s t) (hwf : i.wellFormed = true) :
    regsSameBut (regsWritten i) s t := by
  intro r hr
  cases h with
  | @result dr u v hflag _ frame =>
    exact (u.reg_setReg_ne v (ne_of_not_mem_regsWritten (mem_regsWritten_of_flagDest hflag) hr)).trans (frame.reg r)
  | store _ _ _ _ _ frame => exact frame.reg r
  | jump | sentinel | fatal => rfl
  | call _ _ hlink => exact s.reg_setReg_ne s.pc (ne_of_not_mem_regsWritten (seven_mem_regsWritten hlink) hr)
  | trap _ hlink hr0 served =>
    have hentry : t.reg r = s.trapEntry.reg r := by
      by_cases h0 : r = 0
      · subst h0
        exact hr0 hwf hr
      · exact served.reg h0
    exact hentry.trans (s.reg_setReg_ne s.pc (ne_of_not_mem_regsWritten (seven_mem_regsWritten hlink) hr))

theorem Effect.link {i : Instr} {s t : State} (h : Effect i s t) (hlinks : linksR7 i = true) : t.reg 7 = s.pc := by
  cases h with
  | result _ _ hlink | store _ _ _ hlink | jump _ _ hlink | sentinel _ hlink | fatal _ hlink =>
    exact nomatch hlink.symm.trans hlinks
  | call => exact s.reg_setReg_same 7 s.pc
  | trap _ _ _ served => exact (served.reg (by decide)).trans (s.reg_setReg_same 7 s.pc)

theorem Effect.pc {i : Instr} {s t : State} (h : Effect i s t) (hkeeps : writesPc i = false) : t.pc = s.pc := by
  cases h with
  | result _ _ _ frame | store _ _ _ _ _ frame => exact frame.pc
  | jump _ _ _ hpc | call _ _ _ hpc => exact nomatch hkeeps.symm.trans hpc
  | sentinel | fatal => rfl
  | trap _ _ _ served => exact served.pc

theorem Effect.words {i : Instr} {s t : State} (h : Effect i s t) (hkeeps : isStore i = false) :
    memSameBut [s.config.kbsrAddr, s.config.kbdrAddr] s t := by
  intro a ha
  obtain ⟨hs, hd⟩ : a ≠ s.config.kbsrAddr ∧ a ≠ s.config.kbdrAddr := by simpa using ha
  cases h with
  | result _ _ _ frame => exact frame.word a hs hd
  | store _ _ _ _ hstore => exact nomatch hkeeps.symm.trans hstore
  | jump | call | sentinel | fatal => rfl
  | trap _ _ _ served => exact served.word hs hd

/-- Settles O20: each column of the table from the effect of the instruction; RTI and RES by their own equations. -/
theorem registerWritesAreThoseOfTheTable : Obligations.RegisterWritesAreThoseOfTheTable := by
  intro i s t hwf hexec
  have heffect := effect_of_exec hexec
  refine ⟨heffect.regs hwf, heffect.link, heffect.pc, heffect.words, heffect.cond_of_not_flagDest, ?_⟩
  rintro ⟨ign, rfl | rfl⟩
  · obtain rfl := Host.Outcome.next.inj ((exec_rti s ign).symm.trans hexec)
    exact ⟨⟨_, _, _, rfl⟩, fun _ _ => rfl⟩
  · obtain rfl := Host.Outcome.next.inj ((exec_res s ign).symm.trans hexec)
    exact ⟨⟨_, _, _, rfl⟩, fun _ _ => rfl⟩

/-! ### Input -/

/-- Settles O23: each instruction that takes no input computes the next state from the other fields; a BR, whose test
reads `cond`, in both outcomes of the test. -/
theorem inputReachesOnlyReadsAndGetc : Obligations.InputReachesOnlyReadsAndGetc := by
  intro i s t input htakes hexec
  cases i with
  | ld | ldi | ldr | sti | getc | puts | trap => exact nomatch htakes
  | br n z p off =>
    rw [exec_br] at hexec ⊢
    obtain rfl := Host.Outcome.next.inj hexec
    split
    · exact ⟨rfl, rfl⟩
    · exact ⟨rfl, rfl⟩
  | _ =>
    cases hexec
    exact ⟨rfl, rfl⟩

end Sys2Proof.Machine
end

section
/-! What memory holds: the canonical form as the contents of its cells (20_memory.md R40, R59), and an image from its bytes
to the words it loads (R50 to R52). -/

namespace Sys2Proof.Machine

/-! ### The cells of a canonical memory -/

theorem cellAt_of_mem {c : Host.Cell} {l : List Host.Cell} (hsorted : l.Pairwise (fun c d => c.1 < d.1)) (hc : c ∈ l) :
    cellAt c.1 l = c.2 := by
  induction l with
  | nil => cases hc
  | cons d rest ih =>
    obtain ⟨hd, hrest⟩ := List.pairwise_cons.1 hsorted
    rcases List.mem_cons.1 hc with rfl | hc
    · simp [cellAt]
    · rw [cellAt, if_neg (Nat.ne_of_lt (hd c hc))]
      exact ih hrest hc

theorem mem_of_cellAt {c : Host.Cell} {l : List Host.Cell} (h : cellAt c.1 l = c.2) (hlisted : c.2 ≠ Memory.unlisted) :
    c ∈ l := by
  induction l with
  | nil => exact absurd h.symm hlisted
  | cons d rest ih =>
    rw [cellAt] at h
    split at h
    · rename_i hkey
      exact Prod.ext hkey h ▸ List.mem_cons_self
    · exact List.mem_cons_of_mem d (ih h)

theorem highByte_readWord (m : Memory) (a : Word) : highByte (m.readWord a) = cellAt (cellKey a) m.cells :=
  BitVec.extractLsb'_append_eq_left

theorem lowByte_readWord (m : Memory) (a : Word) : lowByte (m.readWord a) = cellAt (cellKey a + 1) m.cells :=
  BitVec.extractLsb'_append_eq_right

/-- Every storage cell is a half of some word. -/
theorem exists_cellKey {k : Nat} (h : k < Memory.size) : ∃ a : Word, k = cellKey a ∨ k = cellKey a + 1 := by
  simp only [Memory.size, Config.memWords] at h
  refine ⟨BitVec.ofNat 16 (k / 2), ?_⟩
  rw [cellKey, BitVec.toNat_ofNat]
  omega

theorem cellAt_eq_of_readWord_eq {m m' : Memory} (h : ∀ a, m.readWord a = m'.readWord a) {k : Nat}
    (hk : k < Memory.size) : cellAt k m.cells = cellAt k m'.cells := by
  obtain ⟨a, rfl | rfl⟩ := exists_cellKey hk
  · rw [← highByte_readWord, h, highByte_readWord]
  · rw [← lowByte_readWord, h, lowByte_readWord]

theorem cells_subset_of_readWord_eq {m m' : Memory} (hwf : m.wf) (h : ∀ a, m.readWord a = m'.readWord a) :
    m.cells ⊆ m'.cells := by
  intro c hc
  obtain ⟨hsize, hlisted⟩ := hwf.2 c hc
  have hcell : cellAt c.1 m'.cells = c.2 :=
    (cellAt_eq_of_readWord_eq h hsize).symm.trans (cellAt_of_mem hwf.1 hc)
  exact mem_of_cellAt hcell hlisted

/-- Settles O34: memories that read alike list the same cells, and a list with strictly rising keys is determined by its
members. -/
theorem canonicalMemoriesThatReadAlikeAreEqual : Obligations.CanonicalMemoriesThatReadAlikeAreEqual := by
  intro m m' hwf hwf' h
  have hasymm : Std.Asymm (fun c d : Host.Cell => c.1 < d.1) := ⟨fun _ _ => Nat.lt_asymm⟩
  have hcells : m.cells = m'.cells :=
    List.Subset.antisymm_of_pairwise hwf.1 hwf'.1 (cells_subset_of_readWord_eq hwf h)
      (cells_subset_of_readWord_eq hwf' fun a => (h a).symm)
  exact congrArg Memory.mk hcells

/-! ### The words of an image -/

theorem imageWords_length (bytes : List Byte) : (imageWords bytes).length = (bytes.length + 1) / 2 := by
  induction bytes using imageWords.induct with
  | case1 => rfl
  | case2 hi => simp [imageWords]
  | case3 hi lo rest ih =>
    simp only [imageWords, List.length_cons, ih]
    omega

theorem imageWords_getElem? (bytes : List Byte) {k : Nat} (hk : 2 * k < bytes.length) :
    (imageWords bytes)[k]? = some ((bytes[2 * k]?).getD 0 ++ (bytes[2 * k + 1]?).getD 0) := by
  induction bytes using imageWords.induct generalizing k with
  | case1 => exact absurd hk (Nat.not_lt_zero _)
  | case2 hi =>
    obtain rfl : k = 0 := by simpa using hk
    rfl
  | case3 hi lo rest ih =>
    cases k with
    | zero => rfl
    | succ k => exact ih (by simpa [Nat.mul_succ] using hk)

/-- Settles O56: by the recursion of `imageWords`, two bytes at a time. -/
theorem imageWordsAreBigEndianPairs : Obligations.ImageWordsAreBigEndianPairs :=
  fun bytes => ⟨imageWords_length bytes, fun _ hk => imageWords_getElem? bytes hk⟩

/-! ### The copy loop of `init_memory` -/

theorem add_ofNat_succ (a : Word) (k : Nat) : a + BitVec.ofNat 16 (k + 1) = a + 1 + BitVec.ofNat 16 k := by
  rw [Nat.add_comm k 1, BitVec.ofNat_add, BitVec.add_assoc]
  rfl

/-- The loop leaves every word that is not one of its targets. -/
theorem copyWords_readWord_of_ne (a : Word) (words : List Word) (m : Memory) {b : Word}
    (h : ∀ k < words.length, b ≠ a + BitVec.ofNat 16 k) : (copyWords a words m).readWord b = m.readWord b := by
  induction words generalizing a m with
  | nil => rfl
  | cons w rest ih =>
    have hfirst : b ≠ a := by simpa using h 0 (by simp)
    rw [copyWords, ih (a + 1) _ fun k hk => add_ofNat_succ a k ▸ h (k + 1) (Nat.succ_lt_succ hk),
      Memory.readWord_writeWord_ne m w hfirst]

/-- An image of at most 65,536 words meets no target twice, so each target reads as the word copied to it. -/
theorem copyWords_readWord_target (a : Word) (words : List Word) (m : Memory) (hwf : m.wf) (hlen : words.length ≤ 65536)
    {k : Nat} {w : Word} (hk : words[k]? = some w) : (copyWords a words m).readWord (a + BitVec.ofNat 16 k) = w := by
  induction words generalizing a m k with
  | nil => cases hk
  | cons v rest ih =>
    have hwf' := Memory.writeWord_wf m a v hwf
    rw [List.length_cons] at hlen
    cases k with
    | zero =>
      obtain rfl : v = w := by simpa using hk
      have hlater : ∀ j < rest.length, a ≠ a + 1 + BitVec.ofNat 16 j := by
        intro j hj heq
        bv_omega
      rw [BitVec.add_zero, copyWords, copyWords_readWord_of_ne _ _ _ hlater,
        Memory.readWord_writeWord_same m a v hwf]
    | succ k =>
      rw [add_ofNat_succ]
      exact ih (a + 1) _ hwf' (by omega) hk

/-- The word at place `k` of an image that ends inside memory lies `k` addresses past its origin, with no wrap. -/
theorem ne_target_of_outside {origin a : Word} {n k : Nat} (hfits : origin.toNat + n ≤ 65536)
    (ha : a.toNat < origin.toNat ∨ origin.toNat + n ≤ a.toNat) (hk : k < n) : a ≠ origin + BitVec.ofNat 16 k := by
  rintro rfl
  rw [BitVec.toNat_add, BitVec.toNat_ofNat] at ha
  omega

theorem initMemory_of_fits {origin : Word} {words : List Word} (s : State) (h : origin.toNat + words.length ≤ 65536) :
    initMemory (origin :: words) s = .next { s with mem := copyWords origin words s.mem } :=
  if_pos h

theorem initMemory_of_past_end {origin : Word} {words : List Word} (s : State)
    (h : 65536 < origin.toNat + words.length) : initMemory (origin :: words) s = .refused .imagePastEnd :=
  if_neg (Nat.not_le_of_lt h)

/-- Settles O55: what the copy loop writes and leaves, and the two refusals. -/
theorem initMemoryCopiesTheImageOrRefuses : Obligations.InitMemoryCopiesTheImageOrRefuses := by
  refine ⟨fun s origin words hwf hfits => ?_, fun _ => rfl, fun s _ _ => initMemory_of_past_end s⟩
  refine ⟨_, initMemory_of_fits s hfits, fun k w => ?_, fun a ha => ?_, copyWords_wf origin words s.mem hwf, rfl⟩
  · exact copyWords_readWord_target origin words s.mem hwf (by omega)
  · exact copyWords_readWord_of_ne origin words s.mem fun k => ne_target_of_outside hfits ha

end Sys2Proof.Machine
end

section
/-! The read path at the keyboard-status address (20_memory.md R42 to R46): what a poll leaves in KBSR and KBDR, with a
character at this moment and with none. -/

namespace Sys2Proof.Machine

open Sys2Proof.Claims

/-! ### The bits that a poll sets, clears and latches (decisions D6, D7) -/

theorem getLsbD_setBit15 (w : Word) : (w ||| 0x8000).getLsbD 15 = true := by
  simp

theorem getLsbD_clearBit15 (w : Word) : (w &&& 0x7FFF).getLsbD 15 = false := by
  simp

theorem getLsbD_setBit15_of_lt (w : Word) {k : Nat} (hk : k < 15) : (w ||| 0x8000).getLsbD k = w.getLsbD k := by
  have hmask : ∀ j < 15, (0x8000#16).getLsbD j = false := by decide
  rw [BitVec.getLsbD_or, BitVec.ofNat_eq_ofNat, hmask k hk, Bool.or_false]

theorem getLsbD_clearBit15_of_lt (w : Word) {k : Nat} (hk : k < 15) : (w &&& 0x7FFF).getLsbD k = w.getLsbD k := by
  have hmask : ∀ j < 15, (0x7FFF#16).getLsbD j = true := by decide
  rw [BitVec.getLsbD_and, BitVec.ofNat_eq_ofNat, hmask k hk, Bool.and_true]

theorem zext8_toNat (c : Byte) : (zext8 c).toNat = c.toNat :=
  BitVec.toNat_setWidth_of_le (by omega)

theorem lowByte_zext8 (c : Byte) : lowByte (zext8 c) = c :=
  BitVec.eq_of_toNat_eq (by simpa [lowByte, zext8_toNat] using c.isLt)

/-! ### A poll with a character at this moment -/

section
variable {s : State} {c : Byte} {rest : List (Option Byte)} (hin : s.kbIn = some c :: rest)
include hin

theorem pollKeyboard_kbIn_some : s.pollKeyboard.kbIn = rest := by
  rw [State.pollKeyboard_some hin, State.latch_kbIn]

theorem pollKeyboard_trace_some : s.pollKeyboard.trace = s.trace ++ [.kbAvail true, .kbRead c] := by
  rw [State.pollKeyboard_some hin, State.latch_trace, List.append_assoc]
  rfl

theorem pollKeyboard_kbsr_some (hwf : s.mem.wf) (hne : s.config.kbsrAddr ≠ s.config.kbdrAddr) :
    s.pollKeyboard.mem.readWord s.config.kbsrAddr = s.mem.readWord s.config.kbsrAddr ||| 0x8000 := by
  rw [State.pollKeyboard_some hin, State.latch_mem, Memory.readWord_writeWord_ne _ _ hne,
    Memory.readWord_writeWord_same _ _ _ hwf]

theorem pollKeyboard_kbdr_some (hwf : s.mem.wf) : s.pollKeyboard.mem.readWord s.config.kbdrAddr = zext8 c := by
  rw [State.pollKeyboard_some hin, State.latch_mem,
    Memory.readWord_writeWord_same _ _ _ (Memory.writeWord_wf _ _ _ hwf)]

end

/-! ### A poll with no character at this moment -/

section
variable {s : State} (hno : ∀ c rest, s.kbIn ≠ some c :: rest)
include hno

theorem pollKeyboard_kbIn_none : s.pollKeyboard.kbIn = s.kbIn.tail := by
  rw [State.pollKeyboard_not hno, State.clearStatus_kbIn]

theorem pollKeyboard_trace_none : s.pollKeyboard.trace = s.trace ++ [.kbAvail false] := by
  rw [State.pollKeyboard_not hno, State.clearStatus_trace]

theorem pollKeyboard_kbsr_none (hwf : s.mem.wf) :
    s.pollKeyboard.mem.readWord s.config.kbsrAddr = s.mem.readWord s.config.kbsrAddr &&& 0x7FFF := by
  rw [State.pollKeyboard_not hno, State.clearStatus_mem, Memory.readWord_writeWord_same _ _ _ hwf]

theorem pollKeyboard_word_none {a : Word} (ha : a ≠ s.config.kbsrAddr) :
    s.pollKeyboard.mem.readWord a = s.mem.readWord a := by
  rw [State.pollKeyboard_not hno, State.clearStatus_mem, Memory.readWord_writeWord_ne _ _ ha]

end

/-! ### Every poll -/

theorem exists_character_or_none (s : State) :
    (∃ c rest, s.kbIn = some c :: rest) ∨ ∀ c rest, s.kbIn ≠ some c :: rest := by
  by_cases h : ∃ c rest, s.kbIn = some c :: rest
  · exact .inl h
  · exact .inr fun c rest hin => h ⟨c, rest, hin⟩

theorem pollKeyboard_kbsr_bit15 {s : State} (hwf : s.mem.wf) (hne : s.config.kbsrAddr ≠ s.config.kbdrAddr) :
    (s.pollKeyboard.mem.readWord s.config.kbsrAddr).getLsbD 15 = true ↔ ∃ c rest, s.kbIn = some c :: rest := by
  rcases exists_character_or_none s with ⟨c, rest, hin⟩ | hno
  · rw [pollKeyboard_kbsr_some hin hwf hne, getLsbD_setBit15]
    exact iff_of_true rfl ⟨c, rest, hin⟩
  · rw [pollKeyboard_kbsr_none hno hwf, getLsbD_clearBit15]
    exact iff_of_false Bool.false_ne_true fun ⟨c, rest, hin⟩ => hno c rest hin

/-- A poll changes no bit of KBSR but bit 15. -/
theorem pollKeyboard_kbsr_lowBits {s : State} (hwf : s.mem.wf) (hne : s.config.kbsrAddr ≠ s.config.kbdrAddr) {k : Nat}
    (hk : k < 15) :
    (s.pollKeyboard.mem.readWord s.config.kbsrAddr).getLsbD k = (s.mem.readWord s.config.kbsrAddr).getLsbD k := by
  rcases exists_character_or_none s with ⟨c, rest, hin⟩ | hno
  · rw [pollKeyboard_kbsr_some hin hwf hne, getLsbD_setBit15_of_lt _ hk]
  · rw [pollKeyboard_kbsr_none hno hwf, getLsbD_clearBit15_of_lt _ hk]

theorem DeviceFrame.memSameBut {s t : State} (frame : DeviceFrame s t) :
    memSameBut [s.config.kbsrAddr, s.config.kbdrAddr] s t := by
  intro a ha
  obtain ⟨hs, hd⟩ : a ≠ s.config.kbsrAddr ∧ a ≠ s.config.kbdrAddr := by simpa using ha
  exact frame.word a hs hd

/-! ### The statements -/

/-- Settles O35: a read of the status address is a poll, so each clause is what the poll leaves in one field. -/
theorem readPathPollsTheKeyboard : Obligations.ReadPathPollsTheKeyboard := by
  intro s a hwf hne
  refine ⟨State.memRead_ne, ?_, ?_⟩
  · rintro c rest rfl hin
    have hkbsr := pollKeyboard_kbsr_some hin hwf hne
    rw [State.memRead_kbsr]
    exact ⟨hkbsr, hkbsr, pollKeyboard_kbdr_some hin hwf ▸ zext8_toNat c, s.pollKeyboard_frame.1.memSameBut,
      pollKeyboard_kbIn_some hin, pollKeyboard_trace_some hin⟩
  · rintro rfl hno
    have hkbsr := pollKeyboard_kbsr_none hno hwf
    rw [State.memRead_kbsr]
    exact ⟨hkbsr, hkbsr, fun b hb => pollKeyboard_word_none hno (by simpa using hb), pollKeyboard_kbIn_none hno,
      pollKeyboard_trace_none hno⟩

/-- Two status reads in a row are two polls, since the first keeps the configuration. -/
theorem memRead_kbsr_twice (s : State) :
    ((s.memRead s.config.kbsrAddr).2.memRead s.config.kbsrAddr).2 = s.pollKeyboard.pollKeyboard := by
  have hconfig := s.pollKeyboard_frame.1.config
  rw [State.memRead_kbsr, ← hconfig, State.memRead_kbsr]

/-- Settles O36: a poll with a character leaves the rest of the stream to the next poll; one with none writes KBSR only. -/
theorem statusReadsConsumeOneCharacterEach : Obligations.StatusReadsConsumeOneCharacterEach := by
  intro s hwf hne
  refine ⟨by rw [State.memRead_ne hne.symm], fun c d rest hin => ?_, fun hno => ?_⟩
  · have frame := s.pollKeyboard_frame.1
    have hnext : s.pollKeyboard.kbIn = some d :: rest := pollKeyboard_kbIn_some hin
    rw [memRead_kbsr_twice]
    exact ⟨frame.config ▸ pollKeyboard_kbdr_some hnext (frame.memWf hwf), pollKeyboard_kbIn_some hnext⟩
  · rw [State.memRead_kbsr]
    exact pollKeyboard_word_none hno hne.symm

/-- Settles O37: the laws of one write, then a poll of the state it leaves. -/
theorem memWriteIsAPlainStoreEverywhere : Obligations.MemWriteIsAPlainStoreEverywhere := by
  intro s a v hwf
  have hwf' (b : Word) : (s.memWrite b v).mem.wf := Memory.writeWord_wf s.mem b v hwf
  have hsame (b : Word) : (s.memWrite b v).mem.readWord b = v := Memory.readWord_writeWord_same s.mem b v hwf
  have hpoll (b : Word) : (s.memWrite b v).memRead s.config.kbsrAddr = _ := (s.memWrite b v).memRead_kbsr
  refine ⟨hsame a, fun b hb => Memory.readWord_writeWord_ne s.mem v (by simpa using hb), rfl, fun hne => ⟨?_, ?_, ?_⟩⟩
  · rw [hpoll]
    exact pollKeyboard_kbsr_bit15 (hwf' _) hne
  · intro c rest hin
    rw [hpoll]
    exact (congrArg lowByte (pollKeyboard_kbdr_some (s := s.memWrite s.config.kbdrAddr v) hin (hwf' _))).trans
      (lowByte_zext8 c)
  · intro hno
    rw [hpoll]
    exact (pollKeyboard_word_none (s := s.memWrite s.config.kbdrAddr v) hno hne.symm).trans (hsame _)

end Sys2Proof.Machine
end

section
/-! Who writes memory (20_memory.md R47): status reads, and the store instructions the one word they store to, which the next
fetch sees (R56). -/

namespace Sys2Proof.Machine

open Sys2Proof.Claims

/-! ### A store and the fetch after it -/

/-- A store instruction, after the read of its pointer if it has one, is one plain write. -/
theorem exec_store {i : Instr} {sr : Reg} {a : Word} (s : State) (hsource : storeSource i = some sr)
    (haddr : storeAddr s i = some a) :
    ∃ u, DeviceFrame s u ∧ u.hold = s.hold ∧ exec i s = .next (u.memWrite a (s.reg sr)) := by
  cases i with
  | st r off =>
    cases hsource
    cases haddr
    exact ⟨s, .refl s, rfl, exec_st s sr off⟩
  | str r base off =>
    cases hsource
    cases haddr
    exact ⟨s, .refl s, rfl, exec_str s sr base off⟩
  | sti r off =>
    cases hsource
    cases haddr
    obtain ⟨frame, hhold⟩ := indirect_frame s off
    exact ⟨_, frame, hhold, frame.reg sr ▸ exec_sti s sr off⟩
  | _ => cases hsource

/-- Away from the status address a fetch reads the word stored at pc. -/
theorem fetched_memWrite_pc {s : State} (v : Word) (hwf : s.mem.wf) (hne : s.pc ≠ s.config.kbsrAddr) :
    fetched (s.memWrite s.pc v) = v := by
  have hread := State.memRead_ne (s := s.memWrite s.pc v) hne
  exact (congrArg Prod.fst hread).trans (Memory.readWord_writeWord_same s.mem s.pc v hwf)

/-- At the status address the fetch polls, which leaves bits 14:0 of the word stored there (decision D6). -/
theorem fetched_memWrite_pc_kbsr {s : State} (v : Word) (hwf : s.mem.wf) (hkbsr : s.pc = s.config.kbsrAddr)
    (hne : s.config.kbsrAddr ≠ s.config.kbdrAddr) {k : Nat} (hk : k < 15) :
    (fetched (s.memWrite s.pc v)).getLsbD k = v.getLsbD k := by
  have hpoll : (s.memWrite s.config.kbsrAddr v).memRead s.config.kbsrAddr = _ := State.memRead_kbsr _
  have hbits := pollKeyboard_kbsr_lowBits (s := s.memWrite s.config.kbsrAddr v) (Memory.writeWord_wf _ _ v hwf) hne hk
  rw [fetched, State.memWrite_pc, hkbsr, hpoll]
  exact hbits.trans (congrArg (·.getLsbD k) (Memory.readWord_writeWord_same s.mem _ v hwf))

/-- The state in which the fetched instruction executes (40_cycle.md R91, R92). -/
theorem fetchAdvance_snd_eq (s : State) : (fetchAdvance s).2 = { (s.memRead s.pc).2 with pc := s.pc + 1 } := by
  rw [fetchAdvance_snd, (s.memRead_frame s.pc).1.pc]
  rfl

theorem step_of_fetched {s : State} {i : Instr} (hready : s.ready) (hi : decode (fetched s) = .ok i) :
    step s = exec i { (s.memRead s.pc).2 with pc := s.pc + 1 } := by
  rw [step_ready hready, executeWord_ok (w := (fetchAdvance s).1) hi, fetchAdvance_snd_eq]

theorem step_of_fetched_ne {s : State} {i : Instr} (hready : s.ready) (hne : s.pc ≠ s.config.kbsrAddr)
    (hi : decode (fetched s) = .ok i) : step s = exec i { s with pc := s.pc + 1 } := by
  rw [step_of_fetched hready hi, State.memRead_ne hne]

/-- Settles O38: the store leaves a ready machine at the same pc with the stored word there, which the next step fetches. -/
theorem fetchSeesTheStoreBefore : Obligations.FetchSeesTheStoreBefore := by
  intro s i sr ⟨hrun, hidle⟩ hwf hsource haddr
  obtain ⟨u, frame, hhold, hexec⟩ := exec_store s hsource haddr
  have hwf' := frame.memWf hwf
  rw [← frame.pc] at hexec ⊢
  rw [← frame.config]
  have hready : (u.memWrite u.pc (s.reg sr)).ready := ⟨frame.runState.trans hrun, hhold.trans hidle⟩
  refine ⟨_, hexec, hready, rfl, fun hne => ?_, fun hkbsr hne k hk => fetched_memWrite_pc_kbsr _ hwf' hkbsr hne hk⟩
  have hfetched := fetched_memWrite_pc (s.reg sr) hwf' hne
  exact ⟨hfetched, fun j hj => step_of_fetched_ne hready hne (hfetched.symm ▸ hj)⟩

/-! ### Memory that changes by status reads only -/

theorem noStatusRead_congr {s t u : State} (h : t.trace = u.trace) : noStatusRead s t ↔ noStatusRead s u := by
  rw [noStatusRead, noStatusRead, h]

/-- No status read over two stretches of a run is none over either. -/
theorem noStatusRead_split {s t u : State} (hst : s.trace <+: t.trace) (htu : t.trace <+: u.trace)
    (h : noStatusRead s u) : noStatusRead s t ∧ noStatusRead t u := by
  obtain ⟨first, hfirst⟩ := hst
  obtain ⟨second, hsecond⟩ := htu
  have hst : t.trace.drop s.trace.length = first := by rw [← hfirst, List.drop_left]
  have htu : u.trace.drop t.trace.length = second := by rw [← hsecond, List.drop_left]
  have hsu : u.trace.drop s.trace.length = first ++ second := by
    rw [← hsecond, ← hfirst, List.append_assoc, List.drop_left]
  rw [noStatusRead, hsu] at h
  rw [noStatusRead, noStatusRead, hst, htu]
  exact ⟨fun b hb => h b (List.mem_append_left _ hb), fun b hb => h b (List.mem_append_right _ hb)⟩

theorem not_noStatusRead_pollKeyboard (s : State) : ¬ noStatusRead s s.pollKeyboard := by
  rcases exists_character_or_none s with ⟨c, rest, hin⟩ | hno
  · intro h
    refine h true ?_
    simp [pollKeyboard_trace_some hin]
  · intro h
    refine h false ?_
    simp [pollKeyboard_trace_none hno]

/-- From `s` to `t` memory changes by status reads only (20_memory.md R42): no word but KBSR and KBDR, and none where no
status read is made. -/
structure PolledMemory (s t : State) : Prop where
  config : t.config = s.config
  trace : s.trace <+: t.trace
  word : memSameBut [s.config.kbsrAddr, s.config.kbdrAddr] s t
  quiet : noStatusRead s t → t.mem = s.mem

theorem PolledMemory.of_mem_eq {s t : State} (hconfig : t.config = s.config) (htrace : s.trace <+: t.trace)
    (hmem : t.mem = s.mem) : PolledMemory s t :=
  ⟨hconfig, htrace, fun a _ => congrArg (·.readWord a) hmem, fun _ => hmem⟩

theorem PolledMemory.refl (s : State) : PolledMemory s s :=
  .of_mem_eq rfl (List.prefix_refl _) rfl

theorem PolledMemory.trans {s t u : State} (h : PolledMemory s t) (k : PolledMemory t u) : PolledMemory s u where
  config := k.config.trans h.config
  trace := h.trace.trans k.trace
  word a ha := (k.word a (h.config.symm ▸ ha)).trans (h.word a ha)
  quiet hsu :=
    have ⟨hst, htu⟩ := noStatusRead_split h.trace k.trace hsu
    (k.quiet htu).trans (h.quiet hst)

theorem PolledMemory.record (s : State) (e : DevEvent) : PolledMemory s (s.record e) :=
  .of_mem_eq rfl (List.prefix_append _ _) rfl

theorem PolledMemory.setHold (s : State) (h : Hold) : PolledMemory s (s.setHold h) :=
  .of_mem_eq rfl (List.prefix_refl _) rfl

theorem memRead_polledMemory (s : State) (a : Word) : PolledMemory s (s.memRead a).2 := by
  have frame := (s.memRead_frame a).1
  refine ⟨frame.config, frame.trace, frame.memSameBut, fun hquiet => ?_⟩
  by_cases ha : a = s.config.kbsrAddr
  · subst ha
    rw [State.memRead_kbsr] at hquiet
    exact absurd hquiet (not_noStatusRead_pollKeyboard s)
  · rw [State.memRead_ne ha]

/-! ### The trap services -/

theorem getcService_polledMemory (s : State) : PolledMemory s (getcService s) := by
  rcases getcService_cases s with ⟨c, rest, -, hget⟩ | ⟨-, hget⟩
  · rw [hget]
    exact .of_mem_eq rfl (List.prefix_append _ _) rfl
  · rw [hget]
    exact .setHold s .getc

theorem outService_polledMemory (s : State) : PolledMemory s (outService s) :=
  (PolledMemory.record s _).trans (.record _ .outFlush)

theorem putsScan_polledMemory (n : Nat) (a : Word) (s : State) : PolledMemory s (putsScan n a s) := by
  induction n generalizing a s with
  | zero => exact .setHold s _
  | succ n ih =>
    have hread := memRead_polledMemory s a
    rw [putsScan_succ]
    split
    · exact (hread.trans (.record _ .outFlush)).trans (.setHold _ _)
    · exact (hread.trans (.record _ _)).trans (ih _ _)

theorem putsService_polledMemory (a : Word) (s : State) : PolledMemory s (putsService a s) :=
  putsScan_polledMemory _ a s

theorem trapService_polledMemory (ign : BitVec 4) (vec : BitVec 8) (s : State) :
    PolledMemory s (trapService ign vec s) := by
  by_cases h0 : vec = 0x20
  · exact h0 ▸ getcService_polledMemory s
  by_cases h1 : vec = 0x21
  · exact h1 ▸ outService_polledMemory s
  by_cases h2 : vec = 0x22
  · exact h2 ▸ putsService_polledMemory (s.reg 0) s
  by_cases h5 : vec = 0x25
  · exact h5 ▸ .of_mem_eq rfl (List.prefix_refl _) rfl
  rw [trapService_unknown ign vec s h0 h1 h2 h5]
  exact .of_mem_eq rfl (List.prefix_refl _) rfl

/-! ### Instructions -/

/-- What an instruction does to memory: status reads up to some state `u`, and then, for a store, the one word at its
address. -/
def MemoryEffect (i : Instr) (s t : State) : Prop :=
  ∃ u, PolledMemory s u ∧ t.trace = u.trace ∧ memSameBut (storeAddr s i).toList u t ∧ (isStore i = false → t.mem = u.mem)

theorem PolledMemory.memoryEffect {s u : State} (h : PolledMemory s u) (i : Instr) {t : State} (htrace : t.trace = u.trace)
    (hmem : t.mem = u.mem) : MemoryEffect i s t :=
  ⟨u, h, htrace, fun a _ => congrArg (·.readWord a) hmem, fun _ => hmem⟩

/-- A service entered with R7 written. -/
theorem PolledMemory.trapEffect {s t : State} (h : PolledMemory s.trapEntry t) (i : Instr) : MemoryEffect i s t :=
  have hentry : PolledMemory s s.trapEntry := .of_mem_eq rfl (List.prefix_refl _) rfl
  (hentry.trans h).memoryEffect i rfl rfl

theorem PolledMemory.storeEffect {s u : State} (h : PolledMemory s u) {i : Instr} {a : Word} (v : Word)
    (haddr : storeAddr s i = some a) (hstore : isStore i = true) : MemoryEffect i s (u.memWrite a v) := by
  refine ⟨u, h, rfl, fun b hb => ?_, fun hkeeps => nomatch hkeeps.symm.trans hstore⟩
  rw [haddr] at hb
  exact Memory.readWord_writeWord_ne u.mem v (by simpa using hb)

theorem exec_memoryEffect (i : Instr) (s : State) : ∃ t, exec i s = .next t ∧ MemoryEffect i s t := by
  cases i with
  | st sr off => exact ⟨_, exec_st s sr off, (PolledMemory.refl s).storeEffect _ rfl rfl⟩
  | str sr base off => exact ⟨_, exec_str s sr base off, (PolledMemory.refl s).storeEffect _ rfl rfl⟩
  | sti sr off => exact ⟨_, exec_sti s sr off, (memRead_polledMemory s _).storeEffect _ rfl rfl⟩
  | ld dr off => exact ⟨_, exec_ld s dr off, (memRead_polledMemory s _).memoryEffect _ rfl rfl⟩
  | ldr dr base off => exact ⟨_, exec_ldr s dr base off, (memRead_polledMemory s _).memoryEffect _ rfl rfl⟩
  | ldi dr off =>
    have hreads := (memRead_polledMemory s (pcRelative s off)).trans (memRead_polledMemory _ (indirect s off).1)
    exact ⟨_, exec_ldi s dr off, hreads.memoryEffect _ rfl rfl⟩
  | trap ign vec => exact ⟨_, exec_trap s ign vec, (trapService_polledMemory ign vec _).trapEffect _⟩
  | getc ign => exact ⟨_, exec_getc s ign, (getcService_polledMemory _).trapEffect _⟩
  | out ign => exact ⟨_, exec_out s ign, (outService_polledMemory _).trapEffect _⟩
  | puts ign => exact ⟨_, exec_puts s ign, (putsService_polledMemory _ _).trapEffect _⟩
  | br n z p off =>
    refine ⟨_, exec_br s n z p off, ?_⟩
    split
    · exact (PolledMemory.refl s).memoryEffect _ rfl rfl
    · exact (PolledMemory.refl s).memoryEffect _ rfl rfl
  | _ => exact ⟨_, rfl, (PolledMemory.refl s).memoryEffect _ rfl rfl⟩

theorem memoryEffect_of_exec {i : Instr} {s t : State} (h : exec i s = .next t) : MemoryEffect i s t := by
  obtain ⟨u, hu, heffect⟩ := exec_memoryEffect i s
  obtain rfl : u = t := Host.Outcome.next.inj (hu.symm.trans h)
  exact heffect

/-! ### Steps -/

/-- The memory of a step from a fetch: the fetch's own status read, if it is one, then the instruction. -/
theorem step_memoryEffect {s t : State} {i : Instr} (hready : s.ready) (hstep : step s = .next t)
    (hi : decode (fetched s) = .ok i) :
    ∃ u, PolledMemory s u ∧ t.trace = u.trace ∧
      memSameBut (storeAddr { (s.memRead s.pc).2 with pc := s.pc + 1 } i).toList u t ∧
      (isStore i = false → t.mem = u.mem) := by
  rw [step_of_fetched hready hi] at hstep
  obtain ⟨u, hpolled, heffect⟩ := memoryEffect_of_exec hstep
  have hadvance : PolledMemory (s.memRead s.pc).2 { (s.memRead s.pc).2 with pc := s.pc + 1 } :=
    .of_mem_eq rfl (List.prefix_refl _) rfl
  exact ⟨u, ((memRead_polledMemory s s.pc).trans hadvance).trans hpolled, heffect⟩

/-- A step that fetches nothing goes on with a service or finds the machine stopped. -/
theorem step_polledMemory_of_not_ready {s t : State} (hnot : ¬ s.ready) (hstep : step s = .next t) : PolledMemory s t := by
  rcases step_cases hstep with ⟨-, rfl⟩ | ⟨-, -, rfl⟩ | ⟨a, -, -, rfl⟩ | ⟨hready, -⟩
  · exact .refl t
  · exact getcService_polledMemory s
  · exact putsService_polledMemory a s
  · exact absurd hready hnot

theorem initMemory_frame {image : List Word} {s t : State} (h : initMemory image s = .next t) :
    { t with mem := s.mem } = s := by
  cases image with
  | nil => cases h
  | cons origin words =>
    by_cases hfits : origin.toNat + words.length ≤ 65536
    · rw [initMemory_of_fits s hfits] at h
      cases h
      rfl
    · rw [initMemory_of_past_end s (Nat.lt_of_not_le hfits)] at h
      cases h

/-- Settles O21: status reads up to some state, then the word of a store; a step with no fetch makes status reads only. -/
theorem onlyStoresAndStatusReadsChangeMemory : Obligations.OnlyStoresAndStatusReadsChangeMemory := by
  refine ⟨fun s t i hready hstep hi => ?_, fun s t hnot hstep => ?_, fun _ _ _ => initMemory_frame⟩
  · obtain ⟨u, hpolled, htrace, hwords, hmem⟩ := step_memoryEffect hready hstep hi
    have hquiet (h : noStatusRead s t) : u.mem = s.mem := hpolled.quiet ((noStatusRead_congr htrace).1 h)
    refine ⟨fun a ha => ?_, fun h a ha => ?_, fun hkeeps h => (hmem hkeeps).trans (hquiet h)⟩
    · obtain ⟨hkeyboard, hstored⟩ := not_or.1 (mt List.mem_append.2 ha)
      exact (hwords a hstored).trans (hpolled.word a hkeyboard)
    · exact (hwords a ha).trans (congrArg (·.readWord a) (hquiet h))
  · have hpolled := step_polledMemory_of_not_ready hnot hstep
    exact ⟨hpolled.word, hpolled.quiet⟩

end Sys2Proof.Machine
end

section
/-! The decoder and the encoder are inverse (30_encoding.md R60, R61, R69 to R72): where a format puts a field, the decoder
finds it, and the fields of a word, side by side, are the word. -/

namespace Sys2Proof

/-! ### Fields as numbers (R61) -/

theorem chunk_toNat (w : Word) (lo len : Nat) : (chunk w lo len).toNat = w.toNat / 2 ^ lo % 2 ^ len := by
  rw [chunk, BitVec.toNat_ofNat, Nat.shiftRight_eq_div_pow]

theorem chunk_zero_toNat (w : Word) (len : Nat) : (chunk w 0 len).toNat = w.toNat % 2 ^ len := by
  rw [chunk_toNat, pow_zero, Nat.div_one]

theorem regField_val (w : Word) (lo : Nat) : (regField w lo).val = w.toNat / 2 ^ lo % 8 := chunk_toNat w lo 3

theorem getLsbD_iff (w : Word) (k : Nat) : w.getLsbD k = true ↔ w.toNat / 2 ^ k % 2 = 1 := by
  rw [BitVec.getLsbD, Nat.testBit_eq_decide_div_mod_eq, decide_eq_true_iff]

/-- Settles O2: each output is a slice or a bit of the word, as a number. -/
theorem decoderFieldsAreSlicesOfTheWord : Obligations.DecoderFieldsAreSlicesOfTheWord := by
  intro w
  have hopcode : w.toNat / 2 ^ 12 % 2 ^ 4 = w.toNat / 4096 := by omega
  have hbase : (!w.getLsbD 11) = true ↔ w.toNat / 2 ^ 11 % 2 = 0 := by
    rw [Bool.not_eq_true', ← Bool.not_eq_true, getLsbD_iff, Nat.mod_two_not_eq_one]
  have hzero : (w == 0) = true ↔ w.toNat = 0 := by
    rw [beq_iff_eq, ← BitVec.toNat_inj]
    rfl
  exact ⟨(chunk_toNat w 12 4).trans hopcode, regField_val w 9, regField_val w 6, getLsbD_iff w 5, chunk_zero_toNat w 5,
    chunk_zero_toNat w 3, chunk_zero_toNat w 6, chunk_zero_toNat w 9, chunk_zero_toNat w 11, chunk_zero_toNat w 8,
    getLsbD_iff w 11, getLsbD_iff w 10, getLsbD_iff w 9, hbase, hzero⟩

/-! ### Fields of a format's word, and a word as its fields (R69) -/

theorem chunk_asWord {n : Nat} (v : BitVec n) (h : n = 16) (lo len : Nat) :
    chunk (asWord v h) lo len = v.extractLsb' lo len := by
  subst h
  rfl

theorem regField_asWord {n : Nat} (v : BitVec n) (h : n = 16) (lo : Nat) :
    regField (asWord v h) lo = (v.extractLsb' lo 3).toFin := congrArg BitVec.toFin (chunk_asWord v h lo 3)

theorem asWord_chunk (w : Word) {n : Nat} (h : n = 16) : asWord (chunk w 0 n) h = w := by
  subst h
  exact BitVec.extractLsb'_eq_self

/-- Two fields side by side are one. -/
theorem chunk_append_chunk (w : Word) {hi lo m n : Nat} (h : hi = lo + n) :
    chunk w hi m ++ chunk w lo n = chunk w lo (m + n) :=
  BitVec.extractLsb'_append_extractLsb'_eq_extractLsb' h

/-- A bit of the word is a field of length one. -/
theorem ofBool_getLsbD (w : Word) (k : Nat) : BitVec.ofBool (w.getLsbD k) = chunk w k 1 :=
  BitVec.eq_of_getLsbD_eq fun i hi => by
    obtain rfl : i = 0 := by omega
    simp

/-! ### Kinds (R70, R71) -/

/-- The kind of an instruction: JSRR is a JSR, and a service with a row of its own is a TRAP (R71). -/
def Instr.kind : Instr → Kind
  | .haltSentinel | .br _ _ _ _ => .br
  | .addReg _ _ _ _ | .addImm _ _ _ => .add
  | .ld _ _ => .ld
  | .st _ _ => .st
  | .jsr _ | .jsrr _ _ _ => .jsr
  | .andReg _ _ _ _ | .andImm _ _ _ => .and
  | .ldr _ _ _ => .ldr
  | .str _ _ _ => .str
  | .rti _ => .rti
  | .not _ _ _ => .not
  | .ldi _ _ => .ldi
  | .sti _ _ => .sti
  | .jmp _ _ _ => .jmp
  | .res _ => .res
  | .lea _ _ => .lea
  | .trap _ _ | .getc _ | .out _ | .puts _ | .inChar _ | .putsp _ | .halt _ => .trap

/-- The opcode map of R70 read from the name to the number; no word has the kind `undefined`. -/
def Kind.opcode : Kind → BitVec 4
  | .br => 0b0000#4
  | .add => 0b0001#4
  | .ld => 0b0010#4
  | .st => 0b0011#4
  | .jsr => 0b0100#4
  | .and => 0b0101#4
  | .ldr => 0b0110#4
  | .str => 0b0111#4
  | .rti => 0b1000#4
  | .not => 0b1001#4
  | .ldi => 0b1010#4
  | .sti => 0b1011#4
  | .jmp => 0b1100#4
  | .res => 0b1101#4
  | .lea => 0b1110#4
  | .trap | .undefined => 0b1111#4

theorem opcode_kindOf (op : BitVec 4) : (kindOf op).opcode = op := by
  revert op
  decide

theorem opcode_of_kind {w : Word} {k : Kind} (h : kindOf (fields w).opcode = k) : chunk w 12 4 = k.opcode :=
  h ▸ (opcode_kindOf (fields w).opcode).symm

theorem kindOf_encode (i : Instr) : kindOf (fields (encode i)).opcode = i.kind := by
  cases i with
  | haltSentinel => rfl
  | _ =>
    simp (disch := decide) only [encode, encodeTrap, fields, chunk_asWord, BitVec.extractLsb'_append_eq_of_le]
    rfl

/-- The halt sentinel has the opcode of BR (R72), so every other opcode is past its test. -/
theorem allZero_of_kind_ne_br {w : Word} (h : kindOf (fields w).opcode ≠ .br) : (fields w).allZero = false := by
  refine Bool.eq_false_iff.2 fun hz => h ?_
  obtain rfl : w = 0 := eq_of_beq hz
  rfl

/-! ### TRAP words (45_trap.md R143) -/

/-- A vector is that of one of the six rows, or it has no row of its own. -/
theorem trapRow_cases (vec : BitVec 8) : vec = 0x20 ∨ vec = 0x21 ∨ vec = 0x22 ∨ vec = 0x23 ∨ vec = 0x24 ∨
    vec = 0x25 ∨ hasTrapRow vec = false := by
  revert vec
  decide

theorem trap_wellFormed_iff (ign : BitVec 4) (vec : BitVec 8) :
    (Instr.trap ign vec).wellFormed = true ↔ hasTrapRow vec = false := by
  rw [Instr.wellFormed, Bool.not_eq_true']

theorem decodeTrap_of_no_row (ign : BitVec 4) {vec : BitVec 8} (h : hasTrapRow vec = false) :
    decodeTrap ign vec = .trap ign vec := by
  unfold decodeTrap
  split
  case h_7 => rfl
  all_goals simp_all [hasTrapRow]

theorem decodeTrap_wellFormed (ign : BitVec 4) (vec : BitVec 8) : (decodeTrap ign vec).wellFormed = true := by
  rcases trapRow_cases vec with rfl | rfl | rfl | rfl | rfl | rfl | h
  case inr.inr.inr.inr.inr.inr => exact decodeTrap_of_no_row ign h ▸ (trap_wellFormed_iff ign vec).2 h
  all_goals rfl

theorem encode_decodeTrap (ign : BitVec 4) (vec : BitVec 8) : encode (decodeTrap ign vec) = encodeTrap ign vec := by
  rcases trapRow_cases vec with rfl | rfl | rfl | rfl | rfl | rfl | h
  case inr.inr.inr.inr.inr.inr => rw [decodeTrap_of_no_row ign h, encode]
  all_goals rfl

theorem decode_encodeTrap (ign : BitVec 4) (vec : BitVec 8) :
    decode (encodeTrap ign vec) = .ok (decodeTrap ign vec) := by
  have hkind : kindOf (fields (encodeTrap ign vec)).opcode = .trap := kindOf_encode (.trap ign vec)
  have hign : chunk (encodeTrap ign vec) 8 4 = ign := by
    simp (disch := decide) only [encodeTrap, chunk_asWord, BitVec.extractLsb'_append_eq_of_le,
      BitVec.extractLsb'_append_eq_of_add_le, Nat.sub_self, BitVec.extractLsb'_eq_self]
  rw [decode, allZero_of_kind_ne_br (hkind.trans_ne nofun), hkind, hign, Machine.trapvect8_encodeTrap]
  rfl

/-! ### BR words, which share their opcode with the halt sentinel (R72) -/

theorem fields_br (n z p : Bool) (off : BitVec 9) :
    (fields (encode (.br n z p off))).n = n ∧ (fields (encode (.br n z p off))).z = z ∧
      (fields (encode (.br n z p off))).p = p ∧ (fields (encode (.br n z p off))).pcOffset9 = off := by
  refine ⟨?_, ?_, ?_, BitVec.extractLsb'_append_eq_right⟩
  all_goals
    simp only [fields, encode, asWord_getLsbD, BitVec.getLsbD_append]
    exact BitVec.getLsbD_ofBool _ 0

theorem allZero_br {n z p : Bool} {off : BitVec 9} (h : (Instr.br n z p off).wellFormed = true) :
    (fields (encode (.br n z p off))).allZero = false := by
  refine Bool.eq_false_iff.2 fun hz => ?_
  have hw : encode (.br n z p off) = 0 := eq_of_beq hz
  obtain ⟨rfl, rfl, rfl, rfl⟩ := hw ▸ fields_br n z p off
  exact absurd h (by decide)

/-! ### Decoding an encoded instruction -/

/-- The opcode selects the row; each of the row's fields is then read where the format put it. -/
theorem decode_encode (i : Instr) (h : i.wellFormed = true) : decode (encode i) = .ok i := by
  cases i with
  | haltSentinel => rfl
  | br n z p off =>
    obtain ⟨hn, hz, hp, hoff⟩ := fields_br n z p off
    rw [decode, allZero_br h, kindOf_encode, hn, hz, hp, hoff]
    rfl
  | trap ign vec =>
    have hrow := decodeTrap_of_no_row ign ((trap_wellFormed_iff ign vec).1 h)
    exact (decode_encodeTrap ign vec).trans (congrArg Except.ok hrow)
  | getc ign | out ign | puts ign | inChar ign | putsp ign | halt ign => exact decode_encodeTrap ign _
  | _ =>
    rw [decode, allZero_of_kind_ne_br (by rw [kindOf_encode]; nofun), kindOf_encode]
    simp (disch := decide) only [Instr.kind, encode, fields, chunk_asWord, regField_asWord, asWord_getLsbD,
      BitVec.getLsbD_append, BitVec.extractLsb'_append_eq_of_add_le, BitVec.extractLsb'_append_eq_of_le, Nat.reduceSub,
      Nat.sub_self, BitVec.extractLsb'_eq_self, regBits_toFin]
    rfl

/-- Settles O3. -/
theorem decodeOfEncodeIsTheInstruction : Obligations.DecodeOfEncodeIsTheInstruction := decode_encode

/-! ### Encoding a decoded word -/

theorem chunk_of_bit_clear {w : Word} {k : Nat} (h : w.getLsbD k = false) : chunk w k 1 = 0b0#1 :=
  (ofBool_getLsbD w k).symm.trans (congrArg BitVec.ofBool h)

theorem chunk_of_bit_set {w : Word} {k : Nat} (h : w.getLsbD k = true) : chunk w k 1 = 0b1#1 :=
  (ofBool_getLsbD w k).symm.trans (congrArg BitVec.ofBool h)

theorem encodeTrap_of_kind {w : Word} (h : kindOf (fields w).opcode = .trap) :
    encodeTrap (chunk w 8 4) (fields w).trapvect8 = w := by
  have hop : chunk w 12 4 = 0b1111#4 := opcode_of_kind h
  simp (disch := decide) only [encodeTrap, fields, ← hop, chunk_append_chunk, asWord_chunk]

/-- The opcode and the selecting bit of a format are fields of the word too, so the format's word is all of the word's
fields side by side. -/
theorem encode_of_decode {w : Word} {i : Instr} (h : decode w = .ok i) : encode i = w := by
  simp only [decode] at h
  split at h
  case isTrue hz =>
    cases h
    exact (eq_of_beq hz).symm
  split at h
  case h_17 hk => exact absurd hk (kindOf_ne_undefined _)
  all_goals
    rename_i hk
    cases h
    have hop := opcode_of_kind hk
    simp only [Kind.opcode] at hop
  case h_2 | h_6 =>
    split
    case' isTrue hmode => have hbit := chunk_of_bit_set hmode
    case' isFalse hmode => have hbit := chunk_of_bit_clear (Bool.eq_false_iff.2 hmode)
    all_goals
      simp (disch := decide) only [encode, fields, regBits_regField, ← hop, ← hbit, chunk_append_chunk, asWord_chunk]
  case h_5 =>
    split
    case' isTrue hform => have hbit := chunk_of_bit_clear ((Bool.not_eq_true' _).mp hform)
    case' isFalse hform => have hbit := chunk_of_bit_set ((Bool.not_eq_false' _).mp (Bool.eq_false_iff.2 hform))
    all_goals
      simp (disch := decide) only [encode, fields, regBits_regField, ← hop, ← hbit, chunk_append_chunk, asWord_chunk]
  case h_16 => exact (encode_decodeTrap _ _).trans (encodeTrap_of_kind hk)
  all_goals
    simp (disch := decide) only [encode, fields, regBits_regField, ofBool_getLsbD, ← hop, chunk_append_chunk, asWord_chunk]

theorem wellFormed_of_decode {w : Word} {i : Instr} (h : decode w = .ok i) : i.wellFormed = true := by
  have hw : encode i = w := encode_of_decode h
  cases i with
  | br n z p off =>
    by_contra hill
    obtain ⟨⟨⟨rfl, rfl⟩, rfl⟩, rfl⟩ : ((n = false ∧ z = false) ∧ p = false) ∧ off = 0 := by
      simpa [Instr.wellFormed] using hill
    subst hw
    cases h
  | trap ign vec =>
    have hrow : decodeTrap ign vec = .trap ign vec :=
      Except.ok.inj ((decode_encodeTrap ign vec).symm.trans ((congrArg decode hw).trans h))
    exact hrow ▸ decodeTrap_wellFormed ign vec
  | _ => rfl

/-- Settles O4: no word is rejected, and what is decoded is well formed and encodes the word. -/
theorem everyWordIsTheEncodingOfItsDecoding : Obligations.EveryWordIsTheEncodingOfItsDecoding := fun w =>
  have ⟨i, hi⟩ := Machine.exists_decode w
  ⟨i, hi, wellFormed_of_decode hi, encode_of_decode hi⟩

/-- Settles O5: each word decoded. -/
theorem specWordsDecodeAsWritten : Obligations.SpecWordsDecodeAsWritten := by
  unfold Obligations.SpecWordsDecodeAsWritten
  decide

end Sys2Proof
end

section
/-! The execution of a word by its kind and fields: operand 2 of ADD and AND (30_encoding.md R64), and the bits of a word
that change nothing (30_encoding.md R73; decision D12). -/

namespace Sys2Proof.Machine

open Sys2Proof.Claims

/-! ### A word executed, by its kind -/

/-- Operand 2 of ADD and AND by the mode bit (R64). -/
def operand2 (w : Word) (s : State) : Word :=
  if (fields w).mode then sext (fields w).imm5 else s.reg (fields w).sr2

theorem operand2_eq (w : Word) (s : State) : operand2 w s =
    if w.getLsbD 5 then (fields w).imm5.signExtend 16 else s.reg (fields w).sr2 := by
  rw [operand2, sext_eq_signExtend _ (by decide) (by decide)]
  rfl

section
variable {w : Word} (s : State)

theorem executeWord_add (h : kindOf (fields w).opcode = .add) :
    executeWord w s = .next (s.writeResult (fields w).dr (s.reg (fields w).sr1 + operand2 w s)) := by
  rw [executeWord, decode, allZero_of_kind_ne_br (h.trans_ne nofun), h, operand2]
  cases (fields w).mode <;> rfl

theorem executeWord_and (h : kindOf (fields w).opcode = .and) :
    executeWord w s = .next (s.writeResult (fields w).dr (s.reg (fields w).sr1 &&& operand2 w s)) := by
  rw [executeWord, decode, allZero_of_kind_ne_br (h.trans_ne nofun), h, operand2]
  cases (fields w).mode <;> rfl

theorem executeWord_not (h : kindOf (fields w).opcode = .not) :
    executeWord w s = .next (s.writeResult (fields w).dr (~~~ s.reg (fields w).sr1)) := by
  rw [executeWord, decode, allZero_of_kind_ne_br (h.trans_ne nofun), h]
  rfl

theorem executeWord_jmp (h : kindOf (fields w).opcode = .jmp) :
    executeWord w s = .next (s.setPc (s.reg (fields w).sr1)) := by
  rw [executeWord, decode, allZero_of_kind_ne_br (h.trans_ne nofun), h]
  rfl

theorem executeWord_jsrr (h : kindOf (fields w).opcode = .jsr) (hform : w.getLsbD 11 = false) :
    executeWord w s = execJsrr (fields w).sr1 s := by
  have hbase : (fields w).isBaseRegisterForm = true := (Bool.not_eq_true' _).mpr hform
  rw [executeWord, decode, allZero_of_kind_ne_br (h.trans_ne nofun), h, hbase]
  rfl

theorem exec_decodeTrap (ign : BitVec 4) (vec : BitVec 8) :
    exec (decodeTrap ign vec) s = .next (trapService ign vec s.trapEntry) := by
  rcases trapRow_cases vec with rfl | rfl | rfl | rfl | rfl | rfl | h
  case inr.inr.inr.inr.inr.inr => rw [decodeTrap_of_no_row ign h, exec_trap]
  all_goals rfl

theorem executeWord_trap (h : kindOf (fields w).opcode = .trap) :
    executeWord w s = .next (trapService (chunk w 8 4) (fields w).trapvect8 s.trapEntry) := by
  rw [executeWord, decode, allZero_of_kind_ne_br (h.trans_ne nofun), h]
  exact exec_decodeTrap s _ _

theorem executeWord_unimplemented (h : kindOf (fields w).opcode = .rti ∨ kindOf (fields w).opcode = .res) :
    executeWord w s = .next (s.raiseFatal .unimplementedOpcode w) := by
  rcases h with h | h
  · have hi : decode w = .ok (.rti (chunk w 0 12)) := by
      rw [decode, allZero_of_kind_ne_br (h.trans_ne nofun), h]
      rfl
    rw [executeWord_ok hi, exec_rti, encode_of_decode hi]
  · have hi : decode w = .ok (.res (chunk w 0 12)) := by
      rw [decode, allZero_of_kind_ne_br (h.trans_ne nofun), h]
      rfl
    rw [executeWord_ok hi, exec_res, encode_of_decode hi]

end

/-- Settles O7: ADD and AND write the sum, or the conjunction, with operand 2 to DR. -/
theorem modeBitSelectsTheSecondOperand : Obligations.ModeBitSelectsTheSecondOperand := by
  refine fun w s => ⟨fun hadd => ⟨_, executeWord_add s hadd, ?_⟩, fun hand => ⟨_, executeWord_and s hand, ?_⟩⟩
  all_goals rw [State.writeResult_reg, if_pos rfl, operand2_eq]

/-! ### The word in a fault record (60_exceptions.md R160) -/

theorem recordWord_of_running (w : Word) {t : State} (h : t.runState = .running) : recordWord w t = t := by
  rw [recordWord, h]

theorem recordWord_raiseFatal (v w : Word) (kind : FaultKind) (s : State) :
    recordWord v (s.raiseFatal kind w) = s.raiseFatal kind v := rfl

theorem loadFrom_runState (s : State) (dr : Reg) (ea : Word) : (loadFrom dr ea s).runState = s.runState :=
  (s.memRead_frame ea).1.runState

/-- A trap service takes from the ignored bits of its word nothing but what a fatal error records. -/
theorem trapService_recordWord (ign ign' : BitVec 4) (vec : BitVec 8) {e : State} (hrun : e.runState = .running) :
    trapService ign' vec e = recordWord (encodeTrap ign' vec) (trapService ign vec e) := by
  by_cases h0 : vec = 0x20
  · obtain ⟨v, frame⟩ := getcService_frame e
    exact h0 ▸ (recordWord_of_running _ (frame.runState.trans hrun)).symm
  by_cases h1 : vec = 0x21
  · exact h1 ▸ (recordWord_of_running (t := outService e) _ hrun).symm
  by_cases h2 : vec = 0x22
  · exact h2 ▸ (recordWord_of_running _ ((putsService_frame (e.reg 0) e).runState.trans hrun)).symm
  by_cases h5 : vec = 0x25
  · exact h5 ▸ rfl
  rw [trapService_unknown ign vec e h0 h1 h2 h5, trapService_unknown ign' vec e h0 h1 h2 h5]
  rfl

theorem exec_trapRow_records_its_word (ign : BitVec 4) (vec : BitVec 8) {s : State} (hrun : s.runState = .running) :
    ∃ t, exec (decodeTrap ign vec) s = .next t ∧ recordWord (encode (decodeTrap ign vec)) t = t := by
  rw [encode_decodeTrap]
  exact ⟨_, exec_decodeTrap s ign vec, (trapService_recordWord ign ign vec (e := s.trapEntry) hrun).symm⟩

/-- An instruction executed in a RUNNING machine records its own word, if any. -/
theorem exec_records_its_word (i : Instr) {s : State} (hrun : s.runState = .running) :
    ∃ t, exec i s = .next t ∧ recordWord (encode i) t = t := by
  cases i with
  | rti ign => exact ⟨_, exec_rti s ign, rfl⟩
  | res ign => exact ⟨_, exec_res s ign, rfl⟩
  | haltSentinel => exact ⟨_, exec_haltSentinel s, rfl⟩
  | trap ign vec =>
    exact ⟨_, exec_trap s ign vec, (trapService_recordWord ign ign vec (e := s.trapEntry) hrun).symm⟩
  | getc ign => exact exec_trapRow_records_its_word ign 0x20 hrun
  | out ign => exact exec_trapRow_records_its_word ign 0x21 hrun
  | puts ign => exact exec_trapRow_records_its_word ign 0x22 hrun
  | inChar ign => exact exec_trapRow_records_its_word ign 0x23 hrun
  | putsp ign => exact exec_trapRow_records_its_word ign 0x24 hrun
  | halt ign => exact exec_trapRow_records_its_word ign 0x25 hrun
  | ld dr off => exact ⟨_, exec_ld s dr off, recordWord_of_running _ ((loadFrom_runState s dr _).trans hrun)⟩
  | ldr dr base off => exact ⟨_, exec_ldr s dr base off, recordWord_of_running _ ((loadFrom_runState s dr _).trans hrun)⟩
  | ldi dr off =>
    have hread := (indirect_frame s off).1.runState.trans hrun
    exact ⟨_, exec_ldi s dr off, recordWord_of_running _ ((loadFrom_runState _ dr _).trans hread)⟩
  | sti sr off => exact ⟨_, exec_sti s sr off, recordWord_of_running _ ((indirect_frame s off).1.runState.trans hrun)⟩
  | br n z p off =>
    refine ⟨_, exec_br s n z p off, recordWord_of_running _ ?_⟩
    split
    · exact hrun
    · exact hrun
  | _ => exact ⟨_, rfl, recordWord_of_running _ hrun⟩

theorem executeWord_records_its_word {w : Word} {s t : State} (hrun : s.runState = .running)
    (h : executeWord w s = .next t) : recordWord w t = t := by
  obtain ⟨i, hi⟩ := exists_decode w
  obtain ⟨u, hu, hrecord⟩ := exec_records_its_word i hrun
  obtain rfl : u = t := Host.Outcome.next.inj (hu.symm.trans ((executeWord_ok hi s).symm.trans h))
  exact encode_of_decode hi ▸ hrecord

/-! ### Words that agree outside a mask -/

theorem getLsbD_of_agree {w w' m : Word} (h : (w ^^^ w') &&& ~~~m = 0) {k : Nat} (hk : m.getLsbD k = false) :
    w'.getLsbD k = w.getLsbD k := by
  by_contra hne
  have hk16 : 16 ≤ k := by simpa [hk, Ne.symm hne] using congrArg (BitVec.getLsbD · k) h
  exact hne ((BitVec.getLsbD_of_ge w' k hk16).trans (BitVec.getLsbD_of_ge w k hk16).symm)

/-- A field clear of the mask is the same in both. -/
theorem chunk_of_agree {w w' m : Word} (h : (w ^^^ w') &&& ~~~m = 0) {lo len : Nat} (hm : chunk m lo len = 0) :
    chunk w' lo len = chunk w lo len := by
  refine BitVec.eq_of_getLsbD_eq fun i hi => ?_
  have hclear : m.getLsbD (lo + i) = false := by
    have hbit := congrArg (BitVec.getLsbD · i) hm
    simpa [hi] using hbit
  rw [chunk_getLsbD, chunk_getLsbD, getLsbD_of_agree h hclear]

theorem regField_of_agree {w w' m : Word} (h : (w ^^^ w') &&& ~~~m = 0) {lo : Nat} (hm : chunk m lo 3 = 0) :
    regField w' lo = regField w lo := congrArg BitVec.toFin (chunk_of_agree h hm)

/-- A field inside a row's mask is the row's. -/
theorem chunk_of_row {w mask row : Word} (h : w &&& mask = row) {lo len : Nat}
    (hm : chunk mask lo len = BitVec.allOnes len) : chunk w lo len = chunk row lo len := by
  rw [← h, chunk_eq_extractLsb', chunk_eq_extractLsb', BitVec.extractLsb'_and, ← chunk_eq_extractLsb' mask, hm,
    BitVec.and_allOnes]

theorem getLsbD_of_row {w mask row : Word} (h : w &&& mask = row) {k : Nat} (hk : mask.getLsbD k = true) :
    w.getLsbD k = row.getLsbD k := by
  rw [← h, BitVec.getLsbD_and, hk, Bool.and_true]

theorem kind_of_row {w mask row : Word} (h : w &&& mask = row) (hm : chunk mask 12 4 = BitVec.allOnes 4) :
    kindOf (fields w).opcode = kindOf (chunk row 12 4) := congrArg kindOf (chunk_of_row h hm)

theorem kind_of_agree {w w' m : Word} (h : (w ^^^ w') &&& ~~~m = 0) (hm : chunk m 12 4 = 0) :
    kindOf (fields w').opcode = kindOf (fields w).opcode := congrArg kindOf (chunk_of_agree h hm)

theorem eq_of_agree {w w' : Word} (h : (w ^^^ w') &&& ~~~0 = 0) : w' = w :=
  BitVec.eq_of_getLsbD_eq fun _ _ => getLsbD_of_agree h BitVec.getLsbD_zero

/-! ### The rows of the table of R73 -/

section
variable {w w' : Word} (s : State)

/-- ADD and AND in register mode: bits 4:3. -/
theorem executeWord_agree_register (hrow : w &&& 0xF020 = 0x1000 ∨ w &&& 0xF020 = 0x5000)
    (hagree : (w ^^^ w') &&& ~~~0x0018 = 0) : executeWord w' s = executeWord w s := by
  have hmode : w.getLsbD 5 = false := hrow.elim (getLsbD_of_row · rfl) (getLsbD_of_row · rfl)
  have hop2 : operand2 w' s = operand2 w s := by
    simp (disch := decide) only [operand2, fields, hmode, getLsbD_of_agree hagree, regField_of_agree hagree,
      Bool.false_eq_true, reduceIte]
  have hdr : (fields w').dr = (fields w).dr := regField_of_agree hagree rfl
  have hsr1 : (fields w').sr1 = (fields w).sr1 := regField_of_agree hagree rfl
  have hsame := kind_of_agree hagree rfl
  rcases hrow with hrow | hrow
  · have hk : kindOf (fields w).opcode = .add := kind_of_row hrow rfl
    rw [executeWord_add s hk, executeWord_add s (hsame.trans hk), hdr, hsr1, hop2]
  · have hk : kindOf (fields w).opcode = .and := kind_of_row hrow rfl
    rw [executeWord_and s hk, executeWord_and s (hsame.trans hk), hdr, hsr1, hop2]

/-- NOT: bits 5:0. -/
theorem executeWord_agree_not (hrow : w &&& 0xF000 = 0x9000) (hagree : (w ^^^ w') &&& ~~~0x003F = 0) :
    executeWord w' s = executeWord w s := by
  have hdr : (fields w').dr = (fields w).dr := regField_of_agree hagree rfl
  have hsr1 : (fields w').sr1 = (fields w).sr1 := regField_of_agree hagree rfl
  have hk : kindOf (fields w).opcode = .not := kind_of_row hrow rfl
  rw [executeWord_not s hk, executeWord_not s ((kind_of_agree hagree rfl).trans hk), hdr, hsr1]

/-- JMP: bits 11:9 and 5:0. -/
theorem executeWord_agree_jmp (hrow : w &&& 0xF000 = 0xC000) (hagree : (w ^^^ w') &&& ~~~0x0E3F = 0) :
    executeWord w' s = executeWord w s := by
  have hbase : (fields w').sr1 = (fields w).sr1 := regField_of_agree hagree rfl
  have hk : kindOf (fields w).opcode = .jmp := kind_of_row hrow rfl
  rw [executeWord_jmp s hk, executeWord_jmp s ((kind_of_agree hagree rfl).trans hk), hbase]

/-- JSRR: bits 10:9 and 5:0. -/
theorem executeWord_agree_jsrr (hrow : w &&& 0xF800 = 0x4000) (hagree : (w ^^^ w') &&& ~~~0x063F = 0) :
    executeWord w' s = executeWord w s := by
  have hbase : (fields w').sr1 = (fields w).sr1 := regField_of_agree hagree rfl
  have hk : kindOf (fields w).opcode = .jsr := kind_of_row hrow rfl
  have hform : w.getLsbD 11 = false := getLsbD_of_row hrow rfl
  have hform' : w'.getLsbD 11 = false := (getLsbD_of_agree hagree rfl).trans hform
  rw [executeWord_jsrr s hk hform, executeWord_jsrr s ((kind_of_agree hagree rfl).trans hk) hform', hbase]

/-- TRAP: bits 11:8, which only a fatal error records. -/
theorem executeWord_agree_trap {t : State} (hrun : s.runState = .running) (hrow : w &&& 0xF000 = 0xF000)
    (hagree : (w ^^^ w') &&& ~~~0x0F00 = 0) (h : executeWord w s = .next t) :
    executeWord w' s = .next (recordWord w' t) := by
  have hvec : (fields w').trapvect8 = (fields w).trapvect8 := chunk_of_agree hagree rfl
  have hk : kindOf (fields w).opcode = .trap := kind_of_row hrow rfl
  have hk' : kindOf (fields w').opcode = .trap := (kind_of_agree hagree rfl).trans hk
  have hw' : encodeTrap (chunk w' 8 4) (fields w).trapvect8 = w' := hvec ▸ encodeTrap_of_kind hk'
  rw [executeWord_trap s hk] at h
  obtain rfl := Host.Outcome.next.inj h
  rw [executeWord_trap s hk', hvec, trapService_recordWord (chunk w 8 4) (chunk w' 8 4) _ (e := s.trapEntry) hrun, hw']

/-- RTI and RES: bits 11:0, which the fatal error records. -/
theorem executeWord_agree_unimplemented {t : State} (hrow : w &&& 0xF000 = 0x8000 ∨ w &&& 0xF000 = 0xD000)
    (hagree : (w ^^^ w') &&& ~~~0x0FFF = 0) (h : executeWord w s = .next t) :
    executeWord w' s = .next (recordWord w' t) := by
  have hk : kindOf (fields w).opcode = .rti ∨ kindOf (fields w).opcode = .res :=
    hrow.imp (kind_of_row · rfl) (kind_of_row · rfl)
  have hk' : kindOf (fields w').opcode = .rti ∨ kindOf (fields w').opcode = .res := kind_of_agree hagree rfl ▸ hk
  rw [executeWord_unimplemented s hk] at h
  obtain rfl := Host.Outcome.next.inj h
  rw [executeWord_unimplemented s hk', recordWord_raiseFatal]

end

/-- Settles O6: by the rows of R73's table. A row whose execution reads no ignored bit ends in one state, which holds no
record of the other word; TRAP, RTI and RES put the word in the record. -/
theorem ignoredBitsChangeNothingButTheRecord : Obligations.IgnoredBitsChangeNothingButTheRecord := by
  intro w w' s t hrun hagree hexec
  have of_same (hsame : executeWord w' s = executeWord w s) : executeWord w' s = .next (recordWord w' t) := by
    have hexec' := hsame.trans hexec
    exact hexec'.trans (congrArg _ (executeWord_records_its_word hrun hexec').symm)
  unfold ignoredMask at hagree
  split at hagree
  case isTrue hrow => exact of_same (executeWord_agree_register s hrow hagree)
  split at hagree
  case isTrue hrow => exact of_same (executeWord_agree_not s hrow hagree)
  split at hagree
  case isTrue hrow => exact of_same (executeWord_agree_jmp s hrow hagree)
  split at hagree
  case isTrue hrow => exact of_same (executeWord_agree_jsrr s hrow hagree)
  split at hagree
  case isTrue hrow => exact executeWord_agree_trap s hrun hrow hagree hexec
  split at hagree
  case isTrue hrow => exact executeWord_agree_unimplemented s hrow hagree hexec
  exact of_same (congrArg (executeWord · s) (eq_of_agree hagree))

end Sys2Proof.Machine
end

section
/-! The step from the fetch to the dispatch (40_cycle.md R91 to R96): the word that executes, the advanced pc, and the
graceful halts. -/

namespace Sys2Proof.Machine

open Sys2Proof.Claims

/-! ### The word fetched -/

/-- Away from the status address a fetch reads the cell (40_cycle.md R91). -/
theorem fetched_ne {s : State} (hne : s.pc ≠ s.config.kbsrAddr) : fetched s = s.mem.readWord s.pc :=
  congrArg Prod.fst (State.memRead_ne hne)

theorem withFetchWord_toNat (s : State) (w : Word) : s.withFetchWord 16 w.toNat = placeWord s w := by
  rw [State.withFetchWord, Nat.mod_eq_of_lt w.isLt, BitVec.ofNat_toNat, BitVec.setWidth_eq]

/-- Settles O8: the step of the decoded word; away from the status address the read leaves the state as it is. -/
theorem stepExecutesTheDecodedInstruction : Obligations.StepExecutesTheDecodedInstruction :=
  ⟨fun _ _ => step_of_fetched,
    fun _ _ hready hne hi => step_of_fetched_ne hready hne ((congrArg decode (fetched_ne hne)).trans hi)⟩

/-- Settles O9: the placed word is fetched, and it decodes to the instruction it encodes. -/
theorem placedWordIsTheNextInstruction : Obligations.PlacedWordIsTheNextInstruction := by
  intro s i hwf hmem hne
  rw [withFetchWord_toNat, step_ready (placeWord_ready s _), fetchAdvance_placeWord _ hmem hne,
    executeWord_ok (decode_encode i hwf)]
  rfl

/-! ### The advance of pc (40_cycle.md R92) -/

theorem add_one_eq_ofNat_mod (a : Word) : a + 1 = BitVec.ofNat 16 ((a.toNat + 1) % 65536) :=
  BitVec.eq_of_toNat_eq (by simp [BitVec.toNat_add])

theorem step_eq_executeWord {s : State} (hready : s.ready) :
    step s = executeWord (fetched s) { (s.memRead s.pc).2 with pc := s.pc + 1 } := by
  rw [step_ready hready, fetchAdvance_snd_eq]
  rfl

/-- An instruction that writes pc neither halts nor faults (10_state.md R21). -/
theorem exec_runState_of_writesPc {i : Instr} {s t : State} (hpc : writesPc i = true) (h : exec i s = .next t) :
    t.runState = s.runState := by
  cases i with
  | br n z p off =>
    rw [exec_br] at h
    cases h
    split <;> rfl
  | jmp | jsr | jsrr =>
    cases h
    rfl
  | _ => cases hpc

theorem exec_of_step {i : Instr} {s t : State} (hready : s.ready) (hi : decode (fetched s) = .ok i)
    (hstep : step s = .next t) : exec i { (s.memRead s.pc).2 with pc := s.pc + 1 } = .next t :=
  (step_of_fetched hready hi).symm.trans hstep

/-- Settles O10: an instruction that leaves pc alone leaves it advanced; any other goes on running. -/
theorem pcIsAdvancedBeforeDispatch : Obligations.PcIsAdvancedBeforeDispatch := by
  intro s t hready hstep
  have hadvanced : ∀ i, decode (fetched s) = .ok i → writesPc i = false → t.pc = s.pc + 1 := fun _ hi hkeeps =>
    (effect_of_exec (exec_of_step hready hi hstep)).pc hkeeps
  refine ⟨?_, fun hstopped => ?_, hadvanced⟩
  · rw [← add_one_eq_ofNat_mod, ← step_eq_executeWord hready, hstep]
  · obtain ⟨i, hi⟩ := exists_decode (fetched s)
    refine hadvanced i hi (Bool.eq_false_iff.2 fun hwrites => hstopped ?_)
    have hrun := exec_runState_of_writesPc hwrites (exec_of_step hready hi hstep)
    exact hrun.trans ((s.memRead_frame s.pc).1.runState.trans hready.1)

/-! ### The halt sentinel (40_cycle.md R94) -/

theorem decode_eq_haltSentinel_iff (w : Word) : decode w = .ok .haltSentinel ↔ w = 0 :=
  ⟨fun h => (encode_of_decode h).symm, fun h => h ▸ decode_zero⟩

/-- A non-zero word of opcode 0 is a BR (30_encoding.md R72). -/
theorem decode_br {w : Word} (hne : w ≠ 0) (h : kindOf (fields w).opcode = .br) :
    decode w = .ok (.br (fields w).n (fields w).z (fields w).p (fields w).pcOffset9) := by
  have hallZero : (fields w).allZero = false := beq_eq_false_iff_ne.2 hne
  rw [decode, hallZero, h]
  rfl

theorem step_of_fetched_zero {s : State} (hready : s.ready) (hzero : fetched s = 0) :
    step s = .next { (s.memRead s.pc).2 with pc := s.pc + 1, runState := .halted } :=
  step_of_fetched hready ((decode_eq_haltSentinel_iff _).2 hzero)

/-- Settles O11: the sentinel is the decoding of the zero word alone, and its step halts; a BR word is told by its opcode
and its three flag bits. -/
theorem allZeroWordHaltsGracefully : Obligations.AllZeroWordHaltsGracefully := by
  refine ⟨fun _ => step_of_fetched_zero, decode_eq_haltSentinel_iff, fun w hne hrow => ?_, fun s hready hne hzero => ?_⟩
  · have hn : (fields w).n = false := getLsbD_of_row hrow rfl
    have hz : (fields w).z = false := getLsbD_of_row hrow rfl
    have hp : (fields w).p = false := getLsbD_of_row hrow rfl
    rw [decode_br hne (kind_of_row hrow rfl), hn, hz, hp]
  · rw [step_of_fetched_zero hready ((fetched_ne hne).trans hzero), State.memRead_ne hne]

/-! ### The graceful halts (40_cycle.md R96) -/

theorem step_halt (s : State) : step s.halt = .next s.halt := step_stopped nofun

/-- Settles O12: both instructions end in `halt`, HALT after the R7 write of every TRAP. -/
theorem haltWritesOnlyRunState : Obligations.HaltWritesOnlyRunState := by
  intro s ign
  refine ⟨⟨s.halt, exec_haltSentinel s, rfl, fun _ _ => rfl, rfl, rfl, fun _ => rfl, ⟨rfl, rfl⟩, rfl, rfl, step_halt s⟩,
    ⟨s.trapEntry.halt, exec_halt s ign, rfl, s.reg_setReg_same 7 s.pc, fun r hr => ?_, rfl, rfl, fun _ => rfl, ⟨rfl, rfl⟩,
      rfl, rfl, step_halt s.trapEntry⟩⟩
  exact s.reg_setReg_ne s.pc (List.ne_of_not_mem_cons hr)

end Sys2Proof.Machine
end

section
/-! The operate instructions (41_operate.md R100 to R102): each ends by writing its result to `x[DR]`, so all share one
frame and differ in the word written. -/

namespace Sys2Proof.Machine

open Sys2Proof.Claims

/-! ### Writing a result -/

theorem State.writeResult_reg_same (s : State) (dr : Reg) (r : Word) : (s.writeResult dr r).reg dr = r :=
  s.reg_setReg_same dr r

/-- A result written changes `x[DR]` and `cond` only (10_state.md R28). -/
theorem writeResult_operateFrame (s : State) (dr : Reg) (r : Word) : operateFrame dr s (s.writeResult dr r) := by
  refine ⟨flagsOfSigned_of_cond ?_, fun q hq => ?_, rfl, fun _ => rfl, ⟨rfl, rfl⟩, rfl, rfl, rfl⟩
  · rw [State.writeResult_reg_same, State.writeResult_cond]
  · exact s.reg_setReg_ne r (List.ne_of_not_mem_cons hq)

/-! ### The words written -/

/-- Sign extension repeats the top bit: bits past it read as it does (00_scope.md R9). -/
theorem getLsbD_sext_eq_min {n : Nat} (v : BitVec n) (h0 : 0 < n) (h : n ≤ 16) {k : Nat} (hk : k < 16) :
    (sext v).getLsbD k = v.getLsbD (min k (n - 1)) := by
  rw [getLsbD_sext v h0 h hk]
  split
  · rw [Nat.min_eq_left (by omega)]
  · rw [Nat.min_eq_right (by omega)]

/-- Settles O16: the sum of two words is the sum of their numbers modulo 2^16, and adding imm5 is adding its signed value. -/
theorem addWritesTheSumModulo65536 : Obligations.AddWritesTheSumModulo65536 := by
  refine ⟨fun dr sr1 sr2 ign s => ⟨_, exec_addReg s dr sr1 sr2 ign, ?_, writeResult_operateFrame ..⟩,
    fun dr sr1 imm s => ⟨_, exec_addImm s dr sr1 imm, ?_, writeResult_operateFrame ..⟩⟩
  · rw [State.writeResult_reg_same]
    exact BitVec.toNat_add ..
  · rw [State.writeResult_reg_same]
    exact add_sext (s.reg sr1) imm (by decide) (by decide)

/-- Settles O17: bit by bit, where bit `k` of operand 2 in immediate mode is bit `min k 4` of imm5. -/
theorem andWritesTheBitwiseConjunction : Obligations.AndWritesTheBitwiseConjunction := by
  refine ⟨fun dr sr1 sr2 ign s => ⟨_, exec_andReg s dr sr1 sr2 ign, fun k => ?_, writeResult_operateFrame ..⟩,
    fun dr sr1 imm s => ⟨_, exec_andImm s dr sr1 imm, fun k hk => ?_, writeResult_operateFrame ..⟩⟩
  · rw [State.writeResult_reg_same, BitVec.getLsbD_and]
  · rw [State.writeResult_reg_same, BitVec.getLsbD_and, getLsbD_sext_eq_min imm (by decide) (by decide) hk]

/-- Settles O18: the complement of a word is 65,535 minus its number. -/
theorem notInvertsAllSixteenBits : Obligations.NotInvertsAllSixteenBits := by
  refine fun dr sr ign s => ⟨_, exec_not s dr sr ign, ?_, writeResult_operateFrame ..⟩
  rw [State.writeResult_reg_same]
  exact BitVec.toNat_not

end Sys2Proof.Machine
end

section
/-! Control transfer (42_control.md R110 to R114): the test of BR as one of flag bits, the signed target of a PC-relative
transfer, and the one frame of all four instructions. -/

namespace Sys2Proof.Machine

open Sys2Proof.Claims

/-! ### The frame -/

theorem jumpFrame_refl (s : State) : jumpFrame [] s s :=
  ⟨fun _ _ => rfl, rfl, fun _ => rfl, ⟨rfl, rfl⟩, rfl, rfl, rfl⟩

/-- The link of a call writes R7 and nothing else (R113, R114). -/
theorem linkReturn_jumpFrame (s : State) : jumpFrame [7] s (linkReturn s) :=
  ⟨fun _ hr => s.reg_setReg_ne s.pc (List.ne_of_not_mem_cons hr), rfl, fun _ => rfl, ⟨rfl, rfl⟩, rfl, rfl, rfl⟩

/-- No part of a jump's frame speaks of pc, so the transfer itself keeps the frame of what came before it. -/
theorem jumpFrame_setPc {rs : List Reg} {s t : State} (h : jumpFrame rs s t) (v : Word) : jumpFrame rs s (t.setPc v) := h

/-! ### The test of BR -/

/-- The mask test of R110, bit by bit: instr[11:9] against bits 2, 1 and 0 of `cond`. -/
theorem branchTaken_eq (n z p : Bool) (c : Word) :
    branchTaken n z p c = ((n && c.getLsbD 2) || (z && c.getLsbD 1) || (p && c.getLsbD 0)) := by
  have mask : ∀ (n z p : Bool) (flags : BitVec 3), (BitVec.ofBool n ++ BitVec.ofBool z ++ BitVec.ofBool p &&& flags != 0) =
      ((n && flags.getLsbD 2) || (z && flags.getLsbD 1) || (p && flags.getLsbD 0)) := by decide
  have bit : ∀ k < 3, (c.extractLsb' 0 3).getLsbD k = c.getLsbD k := fun k hk => by
    simp [hk]
  rw [branchTaken, mask, bit 2 (by decide), bit 1 (by decide), bit 0 (by decide)]

/-- Each legal value of `cond` has at most one bit set, the bit of its flag (10_state.md R26). -/
theorem cond_bits_of_legal {c : Word} (h : condLegal c) : c.getLsbD 2 = decide (c = condNegative) ∧
    c.getLsbD 1 = decide (c = condZero) ∧ c.getLsbD 0 = decide (c = condPositive) := by
  rcases h with rfl | rfl | rfl | rfl <;> decide

/-! ### The instructions -/

/-- Settles O25: both branches of BR leave everything but pc, and a taken one adds the signed offset. -/
theorem branchIsTakenOnARequestedFlag : Obligations.BranchIsTakenOnARequestedFlag := by
  intro n z p off s
  refine ⟨_, exec_br s n z p off, ?_⟩
  rw [← branchTaken_eq]
  split
  case isTrue =>
    exact ⟨add_sext s.pc off (by decide) (by decide), jumpFrame_setPc (jumpFrame_refl s) _⟩
  case isFalse =>
    exact ⟨rfl, jumpFrame_refl s⟩

/-- Settles O26: on a legal `cond` the three bits that the mask tests are the three flags. -/
theorem branchTestIsTheTestOfTheThreeFlags : Obligations.BranchTestIsTheTestOfTheThreeFlags := by
  intro c hlegal
  refine ⟨fun n z p => ?_, branchTaken_eq false false false c, ?_⟩
  · obtain ⟨hneg, hzero, hpos⟩ := cond_bits_of_legal hlegal
    rw [branchTaken_eq, hneg, hzero, hpos]
  · rcases hlegal with rfl | rfl | rfl | rfl <;> decide

/-- Settles O27: RET is the case of base 7 and needs no argument of its own. -/
theorem jumpLoadsPcFromTheBaseRegister : Obligations.JumpLoadsPcFromTheBaseRegister :=
  fun base ignHi ignLo s => ⟨_, exec_jmp s base ignHi ignLo, rfl, jumpFrame_setPc (jumpFrame_refl s) _⟩

/-- Settles O28: both calls are the link and then a transfer; JSRR reads its base register after the link (D11). -/
theorem callsLinkInR7AndTransfer : Obligations.CallsLinkInR7AndTransfer := by
  refine ⟨fun off s => ?jsr, fun base ignHi ignLo s => ?jsrr⟩
  case jsr =>
    exact ⟨_, exec_jsr s off, s.reg_setReg_same 7 s.pc, add_sext s.pc off (by decide) (by decide),
      jumpFrame_setPc (linkReturn_jumpFrame s) _⟩
  case jsrr =>
    refine ⟨_, exec_jsrr s base ignHi ignLo, s.reg_setReg_same 7 s.pc, fun hne => s.reg_setReg_ne s.pc hne, ?_,
      jumpFrame_setPc (linkReturn_jumpFrame s) _⟩
    rintro rfl
    exact s.reg_setReg_same 7 s.pc

end Sys2Proof.Machine
end

section
/-! Loads and address computation (43_loads.md R120 to R124): the three address sums as signed sums, and the one effect of
LD, LDR and LDI, whose last act is a read through the read path into `x[DR]`. -/

namespace Sys2Proof.Machine

open Sys2Proof.Claims

/-! ### The addresses -/

theorem pcRelative_eq_ofInt {n : Nat} (s : State) (off : BitVec n) (h0 : 0 < n) (h : n ≤ 16) :
    pcRelative s off = BitVec.ofInt 16 (s.pc.toNat + off.toInt) := add_sext s.pc off h0 h

theorem baseOffset_eq_ofInt (s : State) (base : Reg) (off : BitVec 6) :
    baseOffset s base off = BitVec.ofInt 16 ((s.reg base).toNat + off.toInt) :=
  add_sext (s.reg base) off (by decide) (by decide)

/-- Settles O24: the sums are those of the sign-extended fields, the ranges those of signed numbers of 9, 11 and 6 bits. -/
theorem addressesAreSignedSumsModulo65536 : Obligations.AddressesAreSignedSumsModulo65536 := by
  intro s base o6 o9 o11
  exact ⟨pcRelative_eq_ofInt s o9 (by decide) (by decide), pcRelative_eq_ofInt s o11 (by decide) (by decide),
    baseOffset_eq_ofInt s base o6, o9.le_toInt, Int.le_of_lt_add_one o9.toInt_lt, o11.le_toInt,
    Int.le_of_lt_add_one o11.toInt_lt, o6.le_toInt, Int.le_of_lt_add_one o6.toInt_lt⟩

/-- Settles O31: LEA only writes a result, the PC-relative address. -/
theorem leaWritesTheAddress : Obligations.LeaWritesTheAddress := by
  refine fun dr off s => ⟨_, exec_lea s dr off, ?_, writeResult_operateFrame ..⟩
  rw [State.writeResult_reg_same]
  exact pcRelative_eq_ofInt s off (by decide) (by decide)

/-! ### The effect of a load -/

/-- A load made from `m`, a state that reads alone have led to from `s`, has the whole effect of a load in `s`: its own read
keeps the frame too, and what follows is the write of a result. -/
theorem loadFrom_loadEffect (dr : Reg) (ea : Word) {s m : State} (hframe : DeviceFrame s m) (hhold : m.hold = s.hold) :
    loadEffect dr ea s m (loadFrom dr ea m) := by
  have frame : DeviceFrame s (m.memRead ea).2 := hframe.trans (m.memRead_frame ea).1
  have hold : (m.memRead ea).2.hold = s.hold := (m.memRead_frame ea).2.trans hhold
  obtain ⟨hflags, hregs, hpc, hmem, hdevice, hrun, hhold', hconfig⟩ :=
    writeResult_operateFrame (m.memRead ea).2 dr (m.memRead ea).1
  exact ⟨State.writeResult_reg_same .., hflags, fun r hr => (hregs r hr).trans (frame.reg r), hpc.trans frame.pc, hmem,
    hdevice, hrun.trans frame.runState, hhold'.trans hold, hconfig.trans frame.config⟩

/-- Away from the status address a load reads the plain word, and leaves memory and the device (20_memory.md R42). -/
theorem loadFrom_plain (dr : Reg) {ea : Word} {s : State} (h : ea ≠ s.config.kbsrAddr) :
    (loadFrom dr ea s).reg dr = s.mem.readWord ea ∧ memSame s (loadFrom dr ea s) ∧ deviceSame s (loadFrom dr ea s) := by
  obtain ⟨-, -, -, hmem, hdevice, -⟩ := writeResult_operateFrame s dr (s.mem.readWord ea)
  rw [loadFrom_ne s dr h]
  exact ⟨State.writeResult_reg_same .., hmem, hdevice⟩

/-- Settles O29: both are one load, from an address computed in the state before it. -/
theorem ldAndLdrLoadOneWord : Obligations.LdAndLdrLoadOneWord :=
  ⟨fun dr off s => ⟨_, exec_ld s dr off, loadFrom_loadEffect dr _ (.refl s) rfl, loadFrom_plain dr⟩,
    fun dr base off s => ⟨_, exec_ldr s dr base off, loadFrom_loadEffect dr _ (.refl s) rfl, loadFrom_plain dr⟩⟩

/-- Settles O30: a load made after the pointer's read, which keeps the frame, and which away from the status address changes
nothing. -/
theorem ldiLoadsThroughThePointer : Obligations.LdiLoadsThroughThePointer := by
  intro dr off s
  obtain ⟨hframe, hhold⟩ := indirect_frame s off
  refine ⟨_, exec_ldi s dr off, loadFrom_loadEffect dr _ hframe hhold, fun hptr hea => ?_⟩
  rw [indirect_ne s off hptr]
  exact loadFrom_plain dr hea

end Sys2Proof.Machine
end

section
/-! Stores (44_stores.md R130 to R132): the one effect of ST, STR and STI, whose last act is a plain write of `x[SR]`. -/

namespace Sys2Proof.Machine

open Sys2Proof.Claims

/-! ### The effect of a store -/

theorem memWrite_memSameBut (s : State) (a v : Word) : memSameBut [a] s (s.memWrite a v) :=
  fun _ hb => Memory.readWord_writeWord_ne s.mem v (List.ne_of_not_mem_cons hb)

/-- A write made in `m`, a state that reads alone have led to from `s`, has the whole effect of a store in `s`: every address
is alike to it (20_memory.md R46), and what `s` fixes beside memory and the device the reads have kept. -/
theorem memWrite_storeEffect (a v : Word) {s m : State} (hframe : DeviceFrame s m) (hhold : m.hold = s.hold) :
    storeEffect a v s m (m.memWrite a v) :=
  ⟨Memory.readWord_writeWord_same m.mem a v, memWrite_memSameBut m a v, fun r _ => hframe.reg r, hframe.pc, hframe.cond,
    ⟨rfl, rfl⟩, hframe.runState, hhold, hframe.config⟩

/-- Settles O32: both are one write, at an address computed in the state before it. -/
theorem stAndStrStoreOneWord : Obligations.StAndStrStoreOneWord :=
  ⟨fun sr off s => ⟨_, exec_st s sr off, memWrite_storeEffect _ _ (.refl s) rfl⟩,
    fun sr base off s => ⟨_, exec_str s sr base off, memWrite_storeEffect _ _ (.refl s) rfl⟩⟩

/-- Settles O33: a write made after the pointer's read, which keeps the source register and the frame, and which away from
the status address changes nothing. -/
theorem stiStoresThroughThePointer : Obligations.StiStoresThroughThePointer := by
  intro sr off s
  obtain ⟨hframe, hhold⟩ := indirect_frame s off
  have hexec := exec_sti s sr off
  rw [hframe.reg sr] at hexec
  refine ⟨_, hexec, memWrite_storeEffect _ _ hframe hhold, fun hptr => ?_⟩
  rw [indirect_ne s off hptr]
  exact ⟨rfl, memWrite_storeEffect _ _ (.refl s) rfl⟩

end Sys2Proof.Machine
end

section
/-! TRAP and the fatal errors (45_trap.md R140, R144 to R146, R148 to R153): the R7 write that every TRAP row begins with,
and what GETC, OUT and a fatal error then add to it. -/

namespace Sys2Proof.Machine

open Sys2Proof.Claims

/-! ### The entry (45_trap.md R140) -/

theorem trapEntry_reg_seven (s : State) : s.trapEntry.reg 7 = s.pc := s.reg_setReg_same 7 s.pc

theorem trapEntry_regsSameBut (s : State) : regsSameBut [7] s s.trapEntry :=
  fun _ hr => s.reg_setReg_ne s.pc (List.ne_of_not_mem_cons hr)

theorem trapEntry_reg_zero (s : State) : s.trapEntry.reg 0 = s.reg 0 := trapEntry_regsSameBut s 0 (by decide)

/-! ### The fatal errors -/

/-- A vector with no service: the R7 write and the fault record, and nothing else (45_trap.md R144, R148, R149, R151). -/
theorem unknownVector_trapEntry (ign : BitVec 4) (vec : BitVec 8) (s : State) {t : State}
    (h : t = unknownVector ign vec s.trapEntry) :
    t.runState = .faulted .unknownTrapVector (encodeTrap ign vec) (s.pc - 1) ∧ t.reg 7 = s.pc ∧ regsSameBut [7] s t ∧
      t.pc = s.pc ∧ t.cond = s.cond ∧ memSame s t ∧ deviceSame s t ∧ t.hold = s.hold ∧ t.config = s.config := by
  subst h
  exact ⟨rfl, trapEntry_reg_seven s, trapEntry_regsSameBut s, rfl, rfl, fun _ => rfl, ⟨rfl, rfl⟩, rfl, rfl⟩

/-- Settles O39: the four services by the dispatch's own arms, every other vector by its fatal error. -/
theorem trapDispatchesOnTheVector : Obligations.TrapDispatchesOnTheVector := by
  refine fun ign vec s => ⟨?getc, ?out, ?puts, ?halt, fun h0 h1 h2 h5 => ⟨_, exec_trap s ign vec, ?unknown⟩⟩
  case getc | out | puts | halt =>
    rintro rfl
    rfl
  case unknown => exact unknownVector_trapEntry ign vec s (trapService_unknown ign vec _ h0 h1 h2 h5)

/-- Settles O40: both are a vector with no service. -/
theorem inAndPutspAreFatal : Obligations.InAndPutspAreFatal := by
  rintro i ign s (rfl | rfl)
  · exact ⟨_, exec_inChar s ign, unknownVector_trapEntry ign 0x23 s rfl⟩
  · exact ⟨_, exec_putsp s ign, unknownVector_trapEntry ign 0x24 s rfl⟩

/-- The fatal error itself writes `run_state` and nothing else (60_exceptions.md R160). -/
theorem raiseFatal_frame (s : State) (kind : FaultKind) (w : Word) :
    (s.raiseFatal kind w).runState = .faulted kind w (s.pc - 1) ∧ regsSameBut [] s (s.raiseFatal kind w) ∧
      (s.raiseFatal kind w).pc = s.pc ∧ (s.raiseFatal kind w).cond = s.cond ∧ memSame s (s.raiseFatal kind w) ∧
      deviceSame s (s.raiseFatal kind w) ∧ (s.raiseFatal kind w).hold = s.hold ∧
      (s.raiseFatal kind w).config = s.config :=
  ⟨rfl, fun _ _ => rfl, rfl, rfl, fun _ => rfl, ⟨rfl, rfl⟩, rfl, rfl⟩

/-- Settles O41: both are the fatal error and no more. -/
theorem rtiAndResAreFatal : Obligations.RtiAndResAreFatal := by
  rintro i ign s (rfl | rfl)
  · exact ⟨_, exec_rti s ign, raiseFatal_frame s _ _⟩
  · exact ⟨_, exec_res s ign, raiseFatal_frame s _ _⟩

/-! ### OUT (45_trap.md R146) -/

theorem lowByte_eq_ofNat (w : Word) : lowByte w = BitVec.ofNat 8 w.toNat := rfl

/-- Settles O44: two device calls after the entry, which leaves R0 to be read. -/
theorem outWritesTheLowByteOfR0 : Obligations.OutWritesTheLowByteOfR0 := by
  refine fun ign s => ⟨_, exec_out s ign, ?_, rfl, trapEntry_reg_seven s, trapEntry_regsSameBut s, rfl, rfl, fun _ => rfl,
    rfl, rfl, rfl⟩
  rw [outService, State.outFlush_trace, State.outWrite_trace, trapEntry_reg_zero, lowByte_eq_ofNat, List.append_assoc]
  rfl

/-! ### GETC (45_trap.md R145) -/

/-- GETC entered, or gone on with, in a state with a character to come. -/
theorem getcService_completes {e : State} {c : Byte} {rest : List (Option Byte)}
    (h : nextChar e.kbIn = some (c, rest)) :
    (getcService e).hold = .idle ∧ (getcService e).reg 0 = zext8 c ∧ (getcService e).kbIn = rest ∧
      (getcService e).trace = e.trace ++ [.kbRead c] ∧ regsSameBut [0] e (getcService e) ∧ (getcService e).pc = e.pc ∧
      (getcService e).cond = e.cond ∧ memSame e (getcService e) ∧ (getcService e).runState = e.runState ∧
      (getcService e).config = e.config := by
  rw [getcService_some h]
  exact ⟨rfl, State.reg_setReg_same _ 0 _, rfl, rfl, fun r hr => State.reg_setReg_ne _ _ (List.ne_of_not_mem_cons hr), rfl,
    rfl, fun _ => rfl, rfl, rfl⟩

/-- Settles O42: the R7 write of the entry, then the R0 write of the service. -/
theorem getcReadsTheNextCharacter : Obligations.GetcReadsTheNextCharacter := by
  intro ign s c rest h
  obtain ⟨hhold, h0, hin, htrace, hregs, hpc, hcond, hmem, hrun, hconfig⟩ := getcService_completes (e := s.trapEntry) h
  refine ⟨_, exec_getc s ign, h0 ▸ zext8_toNat c, (hregs 7 (by decide)).trans (trapEntry_reg_seven s), fun r hr => ?_, hpc,
    hcond, hmem, hin, htrace, hrun, hhold, hconfig⟩
  obtain ⟨hr0, hr7⟩ : r ∉ [0] ∧ r ∉ [7] := by simpa using hr
  exact (hregs r hr0).trans (trapEntry_regsSameBut s r hr7)

/-- Moments with no character pass. -/
theorem nextChar_append_of_none {l : List (Option Byte)} (h : ∀ m ∈ l, m = none) (later : List (Option Byte)) :
    nextChar (l ++ later) = nextChar later := by
  induction l with
  | nil => rfl
  | cons m l ih =>
    obtain ⟨rfl, hl⟩ := List.forall_mem_cons.1 h
    exact ih hl

/-- Settles O43: a held GETC is the entry with the mark set; a step of it is GETC once more, which holds again, or
completes on the character supplied. -/
theorem getcHoldsUntilACharacterComes : Obligations.GetcHoldsUntilACharacterComes := by
  intro ign s hrun hnone
  have hheld (e : State) (he : e.kbIn = s.kbIn) : getcService e = e.setHold .getc :=
    getcService_none ((nextChar_eq_none_iff _).2 (he ▸ hnone))
  have hexec := exec_getc s ign
  rw [hheld s.trapEntry rfl] at hexec
  refine ⟨_, hexec, rfl, trapEntry_reg_seven s, trapEntry_regsSameBut s, rfl, rfl, fun _ => rfl, ⟨rfl, rfl⟩, hrun, rfl, ?_,
    fun c later => ⟨_, step_getc hrun rfl, ?_⟩⟩
  · have hagain := hheld (s.trapEntry.setHold .getc) rfl
    exact (step_getc (s := s.trapEntry.setHold .getc) hrun rfl).trans (congrArg _ hagain)
  · obtain ⟨hhold, h0, hin, htrace, hregs, hpc, hcond, hmem, hrunning, hconfig⟩ :=
      getcService_completes (e := (s.trapEntry.setHold .getc).provide (some c :: later))
        ((nextChar_append_of_none hnone _).trans (nextChar_some_cons c later))
    exact ⟨hhold, h0, hin, htrace, hregs, hpc, hcond, hmem, hrunning.trans hrun, hconfig⟩

end Sys2Proof.Machine
end

section
/-! PUTS (45_trap.md R147): its loop turn by turn, what it does on a string, and why a scan that the model leaves in
progress has no end: each round of the address space takes a moment of the input, and once there is none the words read
stay. -/

namespace Sys2Proof.Machine

open Sys2Proof.Claims

/-! ### One turn of the loop -/

/-- The state after one turn of the loop, at a word that does not end it. -/
def putsTurn (a : Word) (s : State) : State := (s.memRead a).2.outWrite (lowByte (s.memRead a).1)

theorem putsTurn_frame (a : Word) (s : State) : DeviceFrame s (putsTurn a s) :=
  (s.memRead_frame a).1.trans (.record _ _)

/-- Away from the status address a turn only writes the word's low byte (20_memory.md R42). -/
theorem putsTurn_ne {a : Word} {s : State} (h : a ≠ s.config.kbsrAddr) :
    putsTurn a s = s.outWrite (lowByte (s.mem.readWord a)) := by
  rw [putsTurn, State.memRead_ne h]

/-- At the status address a turn polls before it writes (20_memory.md R42). -/
theorem putsTurn_kbsr (s : State) : putsTurn s.config.kbsrAddr s =
    s.pollKeyboard.outWrite (lowByte (s.pollKeyboard.mem.readWord s.config.kbsrAddr)) := by
  rw [putsTurn, State.memRead_kbsr]

theorem putsScan_succ_of_word_zero {a : Word} {s : State} (n : Nat) (hzero : (s.memRead a).1 = 0) :
    putsScan (n + 1) a s = (s.memRead a).2.outFlush.setHold .idle := by
  rw [putsScan_succ]
  exact if_pos hzero

theorem putsScan_succ_of_word_ne_zero {a : Word} {s : State} (n : Nat) (hne : (s.memRead a).1 ≠ 0) :
    putsScan (n + 1) a s = putsScan n (a + 1) (putsTurn a s) := by
  rw [putsScan_succ]
  exact if_neg hne

theorem putsScan_succ_unfinished {n : Nat} {a : Word} {s : State} :
    (putsScan (n + 1) a s).hold ≠ .idle ↔ (s.memRead a).1 ≠ 0 ∧ (putsScan n (a + 1) (putsTurn a s)).hold ≠ .idle := by
  by_cases hzero : (s.memRead a).1 = 0
  · rw [putsScan_succ_of_word_zero n hzero]
    exact iff_of_false (fun h => h rfl) fun h => h.1 hzero
  · rw [putsScan_succ_of_word_ne_zero n hzero]
    exact (and_iff_right hzero).symm

/-- A scan that has ended is not gone on with. -/
theorem putsScan_add_of_idle {n : Nat} {a : Word} {s : State} (m : Nat) (h : (putsScan n a s).hold = .idle) :
    putsScan (n + m) a s = putsScan n a s := by
  induction n generalizing a s with
  | zero => cases h
  | succ n ih =>
    rw [Nat.succ_add]
    by_cases hzero : (s.memRead a).1 = 0
    · rw [putsScan_succ_of_word_zero _ hzero, putsScan_succ_of_word_zero _ hzero]
    · rw [putsScan_succ_of_word_ne_zero _ hzero] at h ⊢
      rw [putsScan_succ_of_word_ne_zero _ hzero, ih h]

theorem putsScan_eq_of_idle {n m : Nat} {a : Word} {s : State} (hn : (putsScan n a s).hold = .idle)
    (hm : (putsScan m a s).hold = .idle) : putsScan n a s = putsScan m a s :=
  calc putsScan n a s = putsScan (n + m) a s := (putsScan_add_of_idle m hn).symm
    _ = putsScan (m + n) a s := by rw [Nat.add_comm]
    _ = putsScan m a s := putsScan_add_of_idle n hm

theorem putsScan_unfinished_of_le {n m : Nat} {a : Word} {s : State} (hle : n ≤ m) (h : (putsScan m a s).hold ≠ .idle) :
    (putsScan n a s).hold ≠ .idle := by
  intro hidle
  obtain ⟨k, rfl⟩ := Nat.exists_eq_add_of_le hle
  exact h (putsScan_add_of_idle k hidle ▸ hidle)

/-! ### A string off the status address -/

/-- The scan of a string that does not touch the status address, with words enough to reach its end. -/
theorem putsScan_string (n : Nat) {a : Word} {s : State} {str : List Word}
    (hstr : ∀ k, ∀ w, str[k]? = some w → s.mem.readWord (a + BitVec.ofNat 16 k) = w ∧ w ≠ 0)
    (hend : s.mem.readWord (a + BitVec.ofNat 16 str.length) = 0)
    (hoff : ∀ k ≤ str.length, a + BitVec.ofNat 16 k ≠ s.config.kbsrAddr) :
    putsScan (str.length + n + 1) a s = { s with
      trace := s.trace ++ (str.map fun w => DevEvent.outWrite (BitVec.ofNat 8 w.toNat)) ++ [.outFlush], hold := .idle } := by
  induction str generalizing a s with
  | nil =>
    have hread : s.memRead a = (s.mem.readWord a, s) := State.memRead_ne (by simpa using hoff 0 (Nat.zero_le _))
    have hzero : (s.memRead a).1 = 0 := by simpa [hread] using hend
    rw [putsScan_succ_of_word_zero _ hzero, hread, List.map_nil, List.append_nil]
    rfl
  | cons w str ih =>
    have ha : a ≠ s.config.kbsrAddr := by simpa using hoff 0 (Nat.zero_le _)
    obtain ⟨hw, hne⟩ : s.mem.readWord a = w ∧ w ≠ 0 := by simpa using hstr 0 w rfl
    have hread : (s.memRead a).1 ≠ 0 := by rwa [State.memRead_ne ha, hw]
    have htail := ih (a := a + 1) (s := s.outWrite (lowByte w))
      (fun k v hv => add_ofNat_succ a k ▸ hstr (k + 1) v hv) (add_ofNat_succ a str.length ▸ hend)
      fun k hk => add_ofNat_succ a k ▸ hoff (k + 1) (Nat.succ_le_succ hk)
    rw [List.length_cons, Nat.succ_add, putsScan_succ_of_word_ne_zero _ hread, putsTurn_ne ha, hw, htail,
      State.outWrite_trace, lowByte_eq_ofNat, List.map_cons, ← List.append_cons]
    rfl

/-- Settles O45: the bound on a scan is past the end of every such string, and the entry leaves R0 and memory to be
read. -/
theorem putsWritesTheStringThenFlushes : Obligations.PutsWritesTheStringThenFlushes := by
  intro ign s str hlen hidle hstr hend hoff
  have hbound : str.length < putsFuel s.trapEntry := by
    simp only [putsFuel, Config.memWords]
    omega
  obtain ⟨n, hfuel⟩ := Nat.exists_eq_add_of_lt hbound
  refine ⟨_, exec_puts s ign, ?_⟩
  rw [putsService, hfuel, trapEntry_reg_zero, putsScan_string n (s := s.trapEntry) hstr hend hoff]
  exact ⟨rfl, rfl, trapEntry_reg_seven s, trapEntry_regsSameBut s, rfl, rfl, fun _ => rfl, rfl, hidle.symm, rfl⟩

/-! ### On every string -/

/-- Settles O46: reads and device calls keep the frame, and a scan ends in one of its two marks. -/
theorem putsTouchesOnlyTheDevice : Obligations.PutsTouchesOnlyTheDevice := by
  refine ⟨fun ign s => ⟨_, exec_puts s ign, ?_⟩, fun s a hrun hhold => ⟨_, step_puts hrun hhold, ?_⟩⟩
  · have frame := putsService_frame (s.trapEntry.reg 0) s.trapEntry
    exact ⟨(frame.reg 7).trans (trapEntry_reg_seven s), fun r hr => (frame.reg r).trans (trapEntry_regsSameBut s r hr),
      frame.pc, frame.cond, frame.memSameBut, frame.trace, frame.kbIn, frame.runState, frame.config, putsScan_hold _ _ _⟩
  · have frame := putsService_frame a s
    exact ⟨fun r _ => frame.reg r, frame.pc, frame.cond, frame.memSameBut, frame.trace, frame.kbIn,
      frame.runState.trans hrun, frame.config, putsScan_hold _ _ _⟩

theorem putsEnds_of_turn {a : Word} {s t : State} (hne : (s.memRead a).1 ≠ 0) (h : putsEnds (a + 1) (putsTurn a s) t) :
    putsEnds a s t := by
  obtain ⟨b, u, hloop, hend⟩ := h
  exact ⟨b, u, .word hne hloop, hend⟩

theorem putsGoesOn_of_turn {a : Word} {s t : State} (hne : (s.memRead a).1 ≠ 0)
    (h : putsGoesOn (a + 1) (putsTurn a s) t) : putsGoesOn a s t := by
  obtain ⟨b, u, hloop, hrest⟩ := h
  exact ⟨b, u, .word hne hloop, hrest⟩

/-- A scan of any length runs the loop of R147. -/
theorem putsScan_runs_the_loop (n : Nat) (a : Word) (s : State) :
    putsEnds a s (putsScan n a s) ∨ putsGoesOn a s (putsScan n a s) := by
  induction n generalizing a s with
  | zero => exact .inr ⟨a, s, .here a s, rfl⟩
  | succ n ih =>
    by_cases hzero : (s.memRead a).1 = 0
    · rw [putsScan_succ_of_word_zero n hzero]
      exact .inl ⟨a, s, .here a s, hzero, rfl⟩
    · rw [putsScan_succ_of_word_ne_zero n hzero]
      exact (ih (a + 1) (putsTurn a s)).imp (putsEnds_of_turn hzero) (putsGoesOn_of_turn hzero)

/-- The end of the loop, where it has one, is the end of a scan long enough. -/
theorem exists_putsScan_of_putsEnds {a : Word} {s t : State} (h : putsEnds a s t) :
    t.hold = .idle ∧ ∃ n, putsScan n a s = t := by
  obtain ⟨b, u, hloop, hzero, rfl⟩ := h
  refine ⟨rfl, ?_⟩
  induction hloop with
  | here a s => exact ⟨1, putsScan_succ_of_word_zero 0 hzero⟩
  | word hne _ ih =>
    obtain ⟨n, hn⟩ := ih hzero
    exact ⟨n + 1, (putsScan_succ_of_word_ne_zero n hne).trans hn⟩

/-! ### A scan with no input to come -/

/-- With no input to come a poll only clears bit 15 of KBSR, so what a read answers depends on memory alone. -/
theorem memRead_fst_of_no_input {s : State} (hin : s.kbIn = []) (hwf : s.mem.wf) (b : Word) :
    (s.memRead b).1 = if b = s.config.kbsrAddr then s.mem.readWord b &&& 0x7FFF else s.mem.readWord b := by
  split
  next hb =>
    subst hb
    rw [State.memRead_kbsr]
    exact pollKeyboard_kbsr_none (by simp [hin]) hwf
  next hb => rw [State.memRead_ne hb]

theorem putsTurn_no_input {s : State} (hin : s.kbIn = []) (a : Word) : (putsTurn a s).kbIn = [] :=
  List.suffix_nil.1 (hin ▸ (putsTurn_frame a s).kbIn)

/-- With no input to come, a turn changes no answer of a later read: clearing bit 15 twice is clearing it once. -/
theorem memRead_putsTurn_of_no_input {s : State} (hin : s.kbIn = []) (hwf : s.mem.wf) (a b : Word) :
    ((putsTurn a s).memRead b).1 = (s.memRead b).1 := by
  have frame := putsTurn_frame a s
  rw [memRead_fst_of_no_input (putsTurn_no_input hin a) (frame.memWf hwf), memRead_fst_of_no_input hin hwf, frame.config]
  by_cases ha : a = s.config.kbsrAddr
  · subst ha
    have hno : ∀ c rest, s.kbIn ≠ some c :: rest := by simp [hin]
    rw [putsTurn_kbsr, State.outWrite_mem]
    split
    next hb =>
      subst hb
      rw [pollKeyboard_kbsr_none hno hwf, BitVec.and_assoc, BitVec.and_self]
    next hb => exact pollKeyboard_word_none hno hb
  · rw [putsTurn_ne ha, State.outWrite_mem]

/-- With no input to come a scan is unfinished exactly if none of its words is zero as read now. -/
theorem putsScan_unfinished_iff_of_no_input {s : State} (hin : s.kbIn = []) (hwf : s.mem.wf) (n : Nat) (a : Word) :
    (putsScan n a s).hold ≠ .idle ↔ ∀ k < n, (s.memRead (a + BitVec.ofNat 16 k)).1 ≠ 0 := by
  induction n generalizing a s with
  | zero => exact iff_of_true nofun nofun
  | succ n ih =>
    have hwf' := (putsTurn_frame a s).memWf hwf
    rw [putsScan_succ_unfinished, ih (putsTurn_no_input hin a) hwf', Nat.forall_lt_succ_left, BitVec.add_zero]
    simp only [memRead_putsTurn_of_no_input hin hwf, add_ofNat_succ]

/-- A round of the address space meets every address. -/
theorem exists_lt_add_ofNat_eq (a b : Word) : ∃ k < 65536, a + BitVec.ofNat 16 k = b :=
  ⟨(b - a).toNat, (b - a).isLt, by rw [BitVec.ofNat_toNat, BitVec.setWidth_eq, BitVec.add_comm, BitVec.sub_add_cancel]⟩

/-- A round with no input to come and no zero word has read every word there is. -/
theorem putsScan_unfinished_of_round {s : State} (hin : s.kbIn = []) (hwf : s.mem.wf) {a : Word}
    (h : (putsScan 65536 a s).hold ≠ .idle) (n : Nat) : (putsScan n a s).hold ≠ .idle := by
  rw [putsScan_unfinished_iff_of_no_input hin hwf] at h ⊢
  intro k _
  obtain ⟨j, hj, hjk⟩ := exists_lt_add_ofNat_eq a (a + BitVec.ofNat 16 k)
  exact hjk ▸ h j hj

/-! ### Rounds with input to come -/

/-- The state after `n` turns of the loop, if no word of theirs ends it. -/
def putsTurns : Nat → Word → State → State
  | 0, _, s => s
  | n + 1, a, s => putsTurns n (a + 1) (putsTurn a s)

theorem putsTurns_frame (n : Nat) (a : Word) (s : State) : DeviceFrame s (putsTurns n a s) := by
  induction n generalizing a s with
  | zero => exact .refl s
  | succ n ih => exact (putsTurn_frame a s).trans (ih (a + 1) (putsTurn a s))

/-- An unfinished scan has made its turns, and more words go on from there. -/
theorem putsScan_add_of_unfinished {n : Nat} {a : Word} {s : State} (m : Nat) (h : (putsScan n a s).hold ≠ .idle) :
    putsScan (n + m) a s = putsScan m (a + BitVec.ofNat 16 n) (putsTurns n a s) := by
  induction n generalizing a s with
  | zero => rw [Nat.zero_add, BitVec.add_zero, putsTurns]
  | succ n ih =>
    obtain ⟨hne, hrest⟩ := putsScan_succ_unfinished.1 h
    rw [Nat.succ_add, putsScan_succ_of_word_ne_zero _ hne, ih hrest, add_ofNat_succ, putsTurns]

theorem pollKeyboard_kbIn (s : State) : s.pollKeyboard.kbIn = s.kbIn.tail := by
  rcases exists_character_or_none s with ⟨c, rest, hin⟩ | hno
  · rw [pollKeyboard_kbIn_some hin, hin, List.tail_cons]
  · exact pollKeyboard_kbIn_none hno

/-- Turns that pass the status address poll, and so take a moment of the input if there is one. -/
theorem putsTurns_kbIn_length (n : Nat) {k : Nat} {a : Word} {s : State}
    (hkbsr : a + BitVec.ofNat 16 k = s.config.kbsrAddr) :
    (putsTurns (k + n + 1) a s).kbIn.length ≤ s.kbIn.length - 1 := by
  induction k generalizing a s with
  | zero =>
    obtain rfl : a = s.config.kbsrAddr := (BitVec.add_zero a).symm.trans hkbsr
    have hturn : (putsTurn s.config.kbsrAddr s).kbIn = s.kbIn.tail := by
      rw [putsTurn_kbsr, State.outWrite_kbIn, pollKeyboard_kbIn]
    rw [Nat.zero_add, putsTurns, ← List.length_tail, ← hturn]
    exact (putsTurns_frame n _ _).kbIn.length_le
  | succ k ih =>
    have frame := putsTurn_frame a s
    have hturns := ih (a := a + 1) (s := putsTurn a s) (by rw [← add_ofNat_succ, hkbsr, frame.config])
    rw [Nat.succ_add, putsTurns]
    exact hturns.trans (Nat.sub_le_sub_right frame.kbIn.length_le 1)

/-- One round for each moment of the input, and one more, decide whether the scan ends. -/
theorem putsScan_unfinished_of_rounds {r : Nat} {a : Word} {s : State} (hlen : s.kbIn.length ≤ r) (hwf : s.mem.wf)
    (h : (putsScan (65536 * (r + 1)) a s).hold ≠ .idle) (n : Nat) : (putsScan n a s).hold ≠ .idle := by
  induction r generalizing a s with
  | zero => exact putsScan_unfinished_of_round (List.length_eq_zero_iff.1 (Nat.le_zero.1 hlen)) hwf h n
  | succ r ih =>
    have hround : (putsScan 65536 a s).hold ≠ .idle := putsScan_unfinished_of_le (by omega) h
    obtain ⟨k, hk, hkbsr⟩ := exists_lt_add_ofNat_eq a s.config.kbsrAddr
    obtain ⟨j, hj⟩ := Nat.exists_eq_add_of_lt hk
    have hlen' : (putsTurns 65536 a s).kbIn.length ≤ r := by
      rw [hj]
      exact (putsTurns_kbIn_length j hkbsr).trans (Nat.sub_le_of_le_add hlen)
    rw [Nat.mul_succ, Nat.add_comm, putsScan_add_of_unfinished _ hround] at h
    refine putsScan_unfinished_of_le (Nat.le_add_left n 65536) ?_
    rw [putsScan_add_of_unfinished n hround]
    exact ih hlen' ((putsTurns_frame 65536 a s).memWf hwf) h

/-- Settles O47: the bound on a scan is that number of rounds. -/
theorem anUnfinishedPutsNeverFinishesByItself : Obligations.AnUnfinishedPutsNeverFinishesByItself :=
  fun _ _ hwf h n => putsScan_unfinished_of_rounds (Nat.le_refl _) hwf h n

/-! ### The loop of R147 -/

/-- On a canonical memory the service reaches the end of the loop wherever there is one. -/
theorem putsService_eq_of_putsEnds {a : Word} {s t : State} (hwf : s.mem.wf) (h : putsEnds a s t) :
    putsService a s = t := by
  obtain ⟨hidle, n, rfl⟩ := exists_putsScan_of_putsEnds h
  have hservice : (putsService a s).hold = .idle :=
    by_contra fun hne => anUnfinishedPutsNeverFinishesByItself a s hwf hne n hidle
  exact putsScan_eq_of_idle hservice hidle

/-- Settles O59: PUTS and a step that goes on with it are one service, a scan, entered with R7 written or not. -/
theorem putsRunsTheLoopOfR147 : Obligations.PutsRunsTheLoopOfR147 := by
  refine ⟨fun ign s => ⟨putsService (s.reg 0) s.trapEntry, ?_, putsScan_runs_the_loop _ _ _,
    fun hwf _ => putsService_eq_of_putsEnds (s := s.trapEntry) hwf⟩, fun s a hrun hhold =>
    ⟨_, step_puts hrun hhold, putsScan_runs_the_loop _ _ _, fun hwf _ => putsService_eq_of_putsEnds hwf⟩⟩
  rw [exec_puts, trapEntry_reg_zero]

end Sys2Proof.Machine
end

section
/-! Exceptions (60_exceptions.md R160 to R163): how the execution of a word ends, and with it a step and a run. -/

namespace Sys2Proof.Machine

open Sys2Proof.Claims

/-! ### How an instruction ends -/

/-- The state in which the fatal error of a kind is raised: only a TRAP has then written, its R7 (45_trap.md R140). -/
def fatalEntry : FaultKind → State → State
  | .unimplementedOpcode, s => s
  | .unknownTrapVector, s => s.trapEntry

theorem fatalEntry_pc (kind : FaultKind) (s : State) : (fatalEntry kind s).pc = s.pc := by
  cases kind <;> rfl

theorem fatalEntry_cond (kind : FaultKind) (s : State) : (fatalEntry kind s).cond = s.cond := by
  cases kind <;> rfl

/-- How the execution of the word `w` in state `s` ends: `run_state` is left alone, or the word is one of those that halt
(60_exceptions.md R163) or that are fatal (R162). -/
inductive Ending (w : Word) (s : State) : State → Prop where
  | runs {t : State} (hrun : t.runState = s.runState) : Ending w s t
  | sentinel (hw : w = 0) : Ending w s s.halt
  | halt (hw : isTrap w 0x25) : Ending w s s.trapEntry.halt
  | fatal {kind : FaultKind} (hw : faultWord kind w) : Ending w s ((fatalEntry kind s).raiseFatal kind w)

theorem trapService_ending (ign : BitVec 4) (vec : BitVec 8) (s : State) :
    Ending (encodeTrap ign vec) s (trapService ign vec s.trapEntry) := by
  by_cases h0 : vec = 0x20
  · obtain ⟨v, frame⟩ := getcService_frame s.trapEntry
    exact h0 ▸ .runs frame.runState
  by_cases h1 : vec = 0x21
  · exact h1 ▸ .runs (outService_frame s.trapEntry).runState
  by_cases h2 : vec = 0x22
  · exact h2 ▸ .runs (putsService_frame _ s.trapEntry).runState
  by_cases h5 : vec = 0x25
  · exact h5 ▸ .halt ⟨opcode_encodeTrap ign 0x25, trapvect8_encodeTrap ign 0x25⟩
  rw [trapService_unknown ign vec _ h0 h1 h2 h5]
  exact .fatal (faultWord_encodeTrap ign h0 h1 h2 h5)

theorem exec_ending (i : Instr) (s : State) : ∃ t, exec i s = .next t ∧ Ending (encode i) s t := by
  cases i with
  | haltSentinel => exact ⟨_, exec_haltSentinel s, .sentinel rfl⟩
  | rti ign => exact ⟨_, exec_rti s ign, .fatal (faultWord_encode_rti ign)⟩
  | res ign => exact ⟨_, exec_res s ign, .fatal (faultWord_encode_res ign)⟩
  | trap ign vec => exact ⟨_, exec_trap s ign vec, trapService_ending ign vec s⟩
  | getc ign => exact ⟨_, exec_getc s ign, trapService_ending ign 0x20 s⟩
  | out ign => exact ⟨_, exec_out s ign, trapService_ending ign 0x21 s⟩
  | puts ign => exact ⟨_, exec_puts s ign, trapService_ending ign 0x22 s⟩
  | inChar ign => exact ⟨_, exec_inChar s ign, trapService_ending ign 0x23 s⟩
  | putsp ign => exact ⟨_, exec_putsp s ign, trapService_ending ign 0x24 s⟩
  | halt ign => exact ⟨_, exec_halt s ign, trapService_ending ign 0x25 s⟩
  | ld dr off => exact ⟨_, exec_ld s dr off, .runs (loadFrom_runState s dr _)⟩
  | ldr dr base off => exact ⟨_, exec_ldr s dr base off, .runs (loadFrom_runState s dr _)⟩
  | ldi dr off =>
    have hread := (indirect_frame s off).1.runState
    exact ⟨_, exec_ldi s dr off, .runs ((loadFrom_runState _ dr _).trans hread)⟩
  | sti sr off => exact ⟨_, exec_sti s sr off, .runs (indirect_frame s off).1.runState⟩
  | br n z p off => exact ⟨_, exec_br s n z p off, .runs (exec_runState_of_writesPc rfl (exec_br s n z p off))⟩
  | _ => exact ⟨_, rfl, .runs rfl⟩

theorem executeWord_ending (w : Word) (s : State) : ∃ t, executeWord w s = .next t ∧ Ending w s t := by
  obtain ⟨i, hi⟩ := exists_decode w
  rw [executeWord_ok hi, ← encode_of_decode hi]
  exact exec_ending i s

theorem ending_of_executeWord {w : Word} {s t : State} (h : executeWord w s = .next t) : Ending w s t := by
  obtain ⟨u, hu, hending⟩ := executeWord_ending w s
  obtain rfl : u = t := Host.Outcome.next.inj (hu.symm.trans h)
  exact hending

/-- From RUNNING, only a listed word ends FAULTED, with its own record (60_exceptions.md R160, R162). -/
theorem Ending.of_faulted {w : Word} {s t : State} (h : Ending w s t) (hrun : s.runState = .running) {kind : FaultKind}
    {instr addr : Word} (hfault : t.runState = .faulted kind instr addr) :
    faultWord kind w ∧ t = (fatalEntry kind s).raiseFatal kind w := by
  cases h with
  | runs hsame => exact nomatch (hsame.trans hrun).symm.trans hfault
  | sentinel | halt => exact nomatch hfault
  | fatal hw =>
    obtain ⟨rfl, -, -⟩ := RunState.faulted.inj hfault
    exact ⟨hw, rfl⟩

/-- From RUNNING, only a listed word ends HALTED (60_exceptions.md R163). -/
theorem Ending.of_halted {w : Word} {s t : State} (h : Ending w s t) (hrun : s.runState = .running)
    (hhalted : t.runState = .halted) : w = 0 ∨ isTrap w 0x25 := by
  cases h with
  | runs hsame => exact nomatch (hsame.trans hrun).symm.trans hhalted
  | sentinel hw => exact .inl hw
  | halt hw => exact .inr hw
  | fatal => exact nomatch hhalted

/-! ### What the listed words do -/

/-- Every word that R162 lists for a kind is the fatal error of that kind, with the word recorded. -/
theorem executeWord_of_faultWord {kind : FaultKind} {w : Word} (hw : faultWord kind w) (s : State) :
    executeWord w s = .next ((fatalEntry kind s).raiseFatal kind w) := by
  cases kind with
  | unimplementedOpcode => exact executeWord_unimplemented s (hw.imp (congrArg kindOf) (congrArg kindOf))
  | unknownTrapVector =>
    obtain ⟨hopcode, h0, h1, h2, h5⟩ := hw
    have hkind : kindOf (fields w).opcode = .trap := congrArg kindOf hopcode
    rw [executeWord_trap s hkind, trapService_unknown _ _ _ h0 h1 h2 h5, unknownVector, encodeTrap_of_kind hkind]
    rfl

theorem executeWord_of_isTrap_halt {w : Word} (hw : isTrap w 0x25) (s : State) :
    executeWord w s = .next s.trapEntry.halt := by
  obtain ⟨hopcode, hvec⟩ := hw
  rw [executeWord_trap s (congrArg kindOf hopcode), hvec, trapService_halt]

/-! ### How a step ends -/

theorem step_ending {s t : State} (hready : s.ready) (hstep : step s = .next t) :
    Ending (fetched s) (fetchAdvance s).2 t :=
  ending_of_executeWord ((step_ready hready).symm.trans hstep)

theorem step_of_faultWord {s : State} {kind : FaultKind} (hready : s.ready) (hw : faultWord kind (fetched s)) :
    step s = .next ((fatalEntry kind (fetchAdvance s).2).raiseFatal kind (fetched s)) :=
  (step_ready hready).trans (executeWord_of_faultWord hw _)

theorem step_of_isTrap_halt {s : State} (hready : s.ready) (hw : isTrap (fetched s) 0x25) :
    step s = .next (fetchAdvance s).2.trapEntry.halt :=
  (step_ready hready).trans (executeWord_of_isTrap_halt hw _)

/-- The fault record of a step is the fetched word and its address, one before the advanced pc (60_exceptions.md R160). -/
theorem raiseFatal_fetchAdvance_runState (s : State) (kind : FaultKind) (w : Word) :
    ((fatalEntry kind (fetchAdvance s).2).raiseFatal kind w).runState = .faulted kind w s.pc := by
  rw [State.raiseFatal_runState, fatalEntry_pc, fetchAdvance_pc, BitVec.add_sub_cancel]

/-- A ready step ends FAULTED on a listed word only, and then in the state of that word's fatal error. -/
theorem step_faulted {s t : State} (hready : s.ready) (hstep : step s = .next t) {kind : FaultKind} {instr addr : Word}
    (hfault : t.runState = .faulted kind instr addr) :
    faultWord kind (fetched s) ∧ t = (fatalEntry kind (fetchAdvance s).2).raiseFatal kind (fetched s) :=
  (step_ending hready hstep).of_faulted ((fetchAdvance_runState s).trans hready.1) hfault

/-- What a fatal step leaves in the registers: all of them, but for the R7 write of a TRAP (60_exceptions.md R160). -/
theorem fatalEntry_fetchAdvance_regs (s : State) (kind : FaultKind) :
    (kind = .unimplementedOpcode → regsSameBut [] s (fatalEntry kind (fetchAdvance s).2)) ∧
    (kind = .unknownTrapVector → (fatalEntry kind (fetchAdvance s).2).reg 7 = s.pc + 1 ∧
      regsSameBut [7] s (fatalEntry kind (fetchAdvance s).2)) := by
  have hfetch (r : Reg) : (fetchAdvance s).2.reg r = s.reg r := State.reg_congr (fetchAdvance_regs s) r
  constructor
  · rintro rfl r -
    exact hfetch r
  · rintro rfl
    refine ⟨(trapEntry_reg_seven _).trans (fetchAdvance_pc s), fun r hr => ?_⟩
    exact (trapEntry_regsSameBut _ r hr).trans (hfetch r)

/-- Settles O48: a listed word steps to its fatal error, and no other step ends FAULTED. -/
theorem fatalErrorsAreExactlyTheListedWords : Obligations.FatalErrorsAreExactlyTheListedWords := by
  refine fun s t hready hstep => ⟨fun kind => ⟨fun hfault => (step_faulted hready hstep hfault).1, fun hw => ?_⟩,
    fun kind w a hfault => ?_⟩
  · obtain rfl := Host.Outcome.next.inj ((step_of_faultWord hready hw).symm.trans hstep)
    exact raiseFatal_fetchAdvance_runState s kind _
  · obtain ⟨-, rfl⟩ := step_faulted hready hstep hfault
    obtain ⟨-, rfl, rfl⟩ := RunState.faulted.inj ((raiseFatal_fetchAdvance_runState s kind _).symm.trans hfault)
    exact ⟨rfl, rfl, (fatalEntry_pc kind _).trans (fetchAdvance_pc s),
      (fatalEntry_cond kind _).trans (fetchAdvance_cond s), fatalEntry_fetchAdvance_regs s kind⟩

/-- Settles O49: the two words step to a halted state, and no other step ends HALTED. -/
theorem gracefulHaltsAreExactlyTheListedWords : Obligations.GracefulHaltsAreExactlyTheListedWords := by
  intro s t hready hstep
  have hhalt (hw : isTrap (fetched s) 0x25) : t = (fetchAdvance s).2.trapEntry.halt :=
    Host.Outcome.next.inj (hstep.symm.trans (step_of_isTrap_halt hready hw))
  refine ⟨⟨(step_ending hready hstep).of_halted ((fetchAdvance_runState s).trans hready.1), ?_⟩, fun hw => ?_⟩
  · rintro (hzero | hw)
    · obtain rfl := Host.Outcome.next.inj ((step_of_fetched_zero hready hzero).symm.trans hstep)
      rfl
    · rw [hhalt hw, State.halt_runState]
  · rw [hhalt hw, State.halt_reg, trapEntry_reg_seven, fetchAdvance_pc]

/-! ### The status outputs (60_exceptions.md R161) -/

theorem faultOutputs_of_not_endedFatal {s : State} (h : ¬ s.endedFatal) :
    s.faultKindOut = 0 ∧ s.faultInstrOut = 0 ∧ s.faultAddrOut = 0 := by
  unfold State.faultKindOut State.faultInstrOut State.faultAddrOut
  cases hrun : s.runState with
  | running | halted => exact ⟨rfl, rfl, rfl⟩
  | faulted kind instr addr => exact absurd ⟨kind, instr, addr, hrun⟩ h

theorem State.endedFatal.stopped {s : State} (h : s.endedFatal) : s.runState ≠ .running := by
  obtain ⟨kind, instr, addr, hfault⟩ := h
  exact fun hrun => nomatch hrun.symm.trans hfault

/-- Settles O50: the outputs are read off the fault record, and a machine that has one never changes. -/
theorem statusOutputsReportTheFatalError : Obligations.StatusOutputsReportTheFatalError := by
  refine ⟨fun s => faultOutputs_of_not_endedFatal, fun s kind w => ?_, fun s t hfatal hsteps => ?_⟩
  · refine ⟨⟨kind, w, s.instrAddr, rfl⟩, ?_, rfl, rfl, fun _ _ => rfl, rfl⟩
    cases kind <;> rfl
  · obtain rfl := stoppedMachineNeverChanges s t hfatal.stopped hsteps
    exact ⟨rfl, rfl, rfl⟩

/-! ### Steps and runs -/

theorem exists_step (s : State) : ∃ t, step s = .next t := by
  by_cases hrun : s.runState = .running
  · cases hhold : s.hold with
    | idle =>
      obtain ⟨t, ht, -⟩ := executeWord_ending (fetchAdvance s).1 (fetchAdvance s).2
      exact ⟨t, (step_ready ⟨hrun, hhold⟩).trans ht⟩
    | getc => exact ⟨_, step_getc hrun hhold⟩
    | puts a => exact ⟨_, step_puts hrun hhold⟩
  · exact ⟨s, step_stopped hrun⟩

/-- Settles O14: by the endings of an instruction and the ways into a step. -/
theorem everyStepAnswersANextState : Obligations.EveryStepAnswersANextState :=
  ⟨fun i s => (exec_ending i s).imp fun _ => And.left, exists_step⟩

/-- A step enters a fatal error only by fetching a listed word: a service that goes on leaves the machine RUNNING. -/
theorem endedFatal_of_step {s t : State} (hstep : step s = .next t) (hfatal : t.endedFatal) :
    s.endedFatal ∨ s.ready ∧ ∃ kind, faultWord kind (fetched s) := by
  rcases step_cases hstep with ⟨-, rfl⟩ | ⟨hrun, -, rfl⟩ | ⟨a, hrun, -, rfl⟩ | ⟨hready, -⟩
  · exact .inl hfatal
  · obtain ⟨v, frame⟩ := getcService_frame s
    exact absurd (frame.runState.trans hrun) hfatal.stopped
  · exact absurd ((putsService_frame a s).runState.trans hrun) hfatal.stopped
  · obtain ⟨kind, instr, addr, hfault⟩ := hfatal
    exact .inr ⟨hready, kind, (step_faulted hready hstep hfault).1⟩

/-- Settles O51: a listed word fetched makes the next state of the run fatal; conversely by induction on the steps. -/
theorem runIsSafeExactlyWhenNoFatalWordIsFetched : Obligations.RunIsSafeExactlyWhenNoFatalWordIsFetched := by
  intro s
  constructor
  · intro hsafe
    refine ⟨hsafe s (.refl s), fun t hsteps hready kind hw => ?_⟩
    exact hsafe _ (hsteps.tail (step_of_faultWord hready hw)) ⟨kind, fetched t, _, rfl⟩
  · rintro ⟨hstart, hfetches⟩ t hsteps
    induction hsteps with
    | refl => exact hstart
    | @tail t u hsteps hstep ih =>
      intro hfatal
      rcases endedFatal_of_step hstep hfatal with hbefore | ⟨hready, kind, hw⟩
      · exact ih hbefore
      · exact hfetches t hsteps hready kind hw

end Sys2Proof.Machine
end

section
/-! Reset and boot (70_reset_and_hazards.md R180 to R185): a booted machine is the reset state with the host's
configuration and stream and the image in memory. -/

namespace Sys2Proof.Machine

/-! ### The reset state -/

theorem State.reset_ready : State.reset.ready := ⟨rfl, rfl⟩

theorem State.reset_not_endedFatal : ¬ State.reset.endedFatal := fun hfatal => hfatal.stopped State.reset_ready.1

/-- Settles O52: registers and memory by the laws of the reset state, the fault outputs as of a state with no record. -/
theorem resetStateIsTheTableOfR180 : Obligations.ResetStateIsTheTableOfR180 := by
  obtain ⟨hkind, hinstr, haddr⟩ := faultOutputs_of_not_endedFatal State.reset_not_endedFatal
  exact ⟨State.reset_reg, rfl, rfl, State.reset_readWord, rfl, hkind, hinstr, haddr, rfl, rfl⟩

/-- Settles O53: a RUNNING state needs canonical memory and a legal `cond` only, and reset leaves no flag. -/
theorem resetMeetsTheInvariant : Obligations.ResetMeetsTheInvariant := by
  have hcond : condLegal State.reset.cond := .inr (.inr (.inr rfl))
  exact ⟨.of_running State.reset_mem_wf hcond State.reset_ready.1, State.reset_ready⟩

/-! ### The booted state -/

/-- `init_memory` goes on with an image that fits only, and then it has run the copy loop (20_memory.md R51, R52). -/
theorem eq_copyWords_of_initMemory {image : List Word} {s t : State} (h : initMemory image s = .next t) :
    ∃ origin words, image = origin :: words ∧ origin.toNat + words.length ≤ 65536 ∧
      t = { s with mem := copyWords origin words s.mem } := by
  cases image with
  | nil => cases h
  | cons origin words =>
    by_cases hfits : origin.toNat + words.length ≤ 65536
    · exact ⟨origin, words, rfl, hfits, Host.Outcome.next.inj (h.symm.trans (initMemory_of_fits s hfits))⟩
    · rw [initMemory_of_past_end s (Nat.lt_of_not_le hfits)] at h
      cases h

/-- Memory was zero before the image came, so a word the image does not cover is zero. -/
theorem copyWords_reset_readWord_of_outside {origin a : Word} {words : List Word}
    (hfits : origin.toNat + words.length ≤ 65536)
    (ha : a.toNat < origin.toNat ∨ origin.toNat + words.length ≤ a.toNat) :
    (copyWords origin words State.reset.mem).readWord a = 0 := by
  rw [copyWords_readWord_of_ne origin words _ fun _ => ne_target_of_outside hfits ha, State.reset_readWord]

/-- The all-zero word is the halt sentinel (40_cycle.md R94). -/
theorem step_of_zero_word {s : State} (hready : s.ready) (hne : s.pc ≠ s.config.kbsrAddr)
    (hzero : s.mem.readWord s.pc = 0) : step s = .next { s with pc := s.pc + 1, runState := .halted } := by
  obtain ⟨-, -, -, hstep⟩ := allZeroWordHaltsGracefully
  exact hstep s hready hne hzero

/-- Settles O57: the copy loop writes memory only; at an uncovered 0x3000 the first fetch is of the zero that reset left. -/
theorem bootStartsAtTheFixedEntryPoint : Obligations.BootStartsAtTheFixedEntryPoint := by
  intro config input image s hboot
  obtain ⟨origin, words, himage, hfits, rfl⟩ := eq_copyWords_of_initMemory hboot
  refine ⟨State.reset_ready, rfl, State.reset_reg, rfl, copyWords_wf origin words _ State.reset_mem_wf, rfl, rfl, rfl,
    fun hne huncovered => ?_⟩
  have houtside := huncovered origin words himage
  exact step_of_zero_word State.reset_ready hne.symm (copyWords_reset_readWord_of_outside hfits houtside)

/-! ### Reset applied again -/

/-- Reset reads the configuration and the stream of a state, nothing else (70_reset_and_hazards.md R183). -/
theorem resetAgain_congr {s s' : State} (image : List Word) (hconfig : s.config = s'.config) (hinput : s.kbIn = s'.kbIn) :
    resetAgain image s = resetAgain image s' :=
  congrArg₂ (boot · · image) hconfig hinput

/-- Settles O58: both resets are one boot, which ends ready, so with no fault record. -/
theorem resetAbandonsWhateverWasInProgress : Obligations.ResetAbandonsWhateverWasInProgress := by
  intro s s' t image hconfig hinput hreset
  obtain ⟨hready, hpc, hregs, -⟩ := bootStartsAtTheFixedEntryPoint s.config s.kbIn image t hreset
  obtain ⟨hkind, -⟩ := faultOutputs_of_not_endedFatal fun hfatal => hfatal.stopped hready.1
  exact ⟨(resetAgain_congr image hconfig hinput).symm.trans hreset, hready, hpc, hkind, hregs⟩

end Sys2Proof.Machine
end
